-- ==== Sys2Proof/Word.lean ====
section
/-! DEFINITION. The words and values that travel through the engine: the fixed-width fields, the four value types of
10_state.md section 2, and the command and response words as the fields of 30_encoding.md section 1.

A semantic integer (`count`, `identifier`, `coarseVoltage` given to construct, the raw number given to an enumeration
decode) is an unsigned integer "of unbounded mathematical size unless a width is written" (R9, R10): it is a `Nat`, and
its width `SEMW` is a bound that `WellFormed.lean` and the port invariant of `Safety.lean` state. -/

namespace Sys2Proof

/-- A raw byte on the wire, bit 0 the least significant (R7, R8, R35). -/
abbrev Byte := BitVec 8

/-- A four-bit field: `count`, the wire `identifier`, `coarseVoltage` (R7, R23, R24). -/
abbrev Nibble := BitVec 4

/-- The op-select field of a command word (R45, R48). -/
abbrev OpSel := BitVec 4

/-- The three-bit pattern that carries a `StatusCode` on a port; `110` is the tag of no variant (R27). -/
abbrev StatusTag := BitVec 3

/-- The one-bit pattern that carries a `ResolutionCode` on a port; every pattern is a tag (R27). -/
abbrev ResolutionTag := BitVec 1

/-- R21: the closed set of exactly seven battery-status variants. -/
inductive StatusCode where
  | reserved
  | new
  | good
  | ok
  | low
  | critical
  | invalid
  deriving DecidableEq, Repr

/-- R22: the closed set of exactly two cumulative-operating-time resolutions. -/
inductive ResolutionCode where
  | sixteenSecond
  | twoSecond
  deriving DecidableEq, Repr

/-- R23: `count` is always in `0..15`; `identifier` is "stored as given" and may be any `SEMW`-bit number (C3). -/
structure BatteryIdentifier where
  count : Nibble
  identifier : Nat
  deriving DecidableEq, Repr

/-- R24: exactly `16 * 7 * 2 = 224` values. -/
structure BatteryDescriptiveField where
  coarseVoltage : Nibble
  status : StatusCode
  resolution : ResolutionCode
  deriving DecidableEq, Repr

/-- R45: the three fields of a command word `cmd = (b, a, op)`. -/
structure Cmd where
  op : OpSel
  a : Nat
  b : Nat
  deriving DecidableEq, Repr

/-- R46: the three fields of a response word `rsp = (ill, r1, r0)`. -/
structure Rsp where
  r0 : Nat
  r1 : Nat
  ill : Bool
  deriving DecidableEq, Repr

end Sys2Proof
end

