-- ==== Sys2Proof/Config.lean ====
section
/-! DEFINITION. What is fixed when the engine is built: `SEMW`, the one implementation parameter (R6, R18, R105; D2,
U6). There is no free value: nothing `Exec` computes is left open (R112). -/

namespace Sys2Proof

/-- R6: the engine's one parameter. The constraint `SEMW >= 8` holds by construction: `extra` is `SEMW - 8`. -/
structure Config where
  extra : Nat
  deriving DecidableEq, Repr

/-- R6: the width in bits of a semantic integer operand. -/
def Config.semw (c : Config) : Nat := 8 + c.extra

/-- R6: "The default, used for every bit position and every vector this spec prints, is `SEMW = 8`". -/
def Config.default : Config := ⟨0⟩

/-- R7: the clamp bound of construct. -/
def clampBound : Nat := 15

end Sys2Proof
end

