-- ==== Sys2Proof/Syntax.lean ====
section
/-! DEFINITION. The sixteen rows of spec/opcode_table.json as the one inductive `Instr`, in the table's order, each with
the operands R50 says it reads; and the host's side of a run: where an operand comes from and where a response goes
(R14, R31, R57). -/

namespace Sys2Proof

/-- One constructor per row of spec/opcode_table.json. The operands are the bits of `cmd.a` and `cmd.b` that R50 lists;
every bit R50 does not list is ignored (R52) and is no operand. -/
inductive Instr where
  /-- `SC.DEC` (R64): `raw = a[SEMW-1:0]`. -/
  | scDec (raw : Nat)
  /-- `SC.ENC` (R65): `status = a[2:0]`. -/
  | scEnc (status : StatusTag)
  /-- The reserved op-select code `0x2` (R54). -/
  | reserved2
  /-- The reserved op-select code `0x3` (R54). -/
  | reserved3
  /-- `RC.DEC` (R68): `raw = a[SEMW-1:0]`. -/
  | rcDec (raw : Nat)
  /-- `RC.ENC` (R69): `resolution = a[0]`. -/
  | rcEnc (resolution : ResolutionTag)
  /-- `RC.MUL` (R70): `resolution = a[0]`. -/
  | rcMul (resolution : ResolutionTag)
  /-- The reserved op-select code `0x7` (R54). -/
  | reserved7
  /-- `BI.DEC` (R73): `raw = a[7:0]`. -/
  | biDec (raw : Byte)
  /-- `BI.ENC` (R76): `count = a[3:0]`, `identifier = b[SEMW-1:0]`. -/
  | biEnc (count : Nibble) (identifier : Nat)
  /-- `BI.CON` (R75): `count = a[SEMW-1:0]`, `identifier = b[SEMW-1:0]`. -/
  | biCon (count : Nat) (identifier : Nat)
  /-- The reserved op-select code `0xB` (R54). -/
  | reservedB
  /-- `BDF.DEC` (R81): `raw = a[7:0]`. -/
  | bdfDec (raw : Byte)
  /-- `BDF.ENC` (R84): `coarseVoltage = a[3:0]`, `status = b[2:0]`, `resolution = b[3]`. -/
  | bdfEnc (coarseVoltage : Nibble) (status : StatusTag) (resolution : ResolutionTag)
  /-- `BDF.CON` (R83): `coarseVoltage = a[SEMW-1:0]`, `status = b[2:0]`, `resolution = b[3]`. -/
  | bdfCon (coarseVoltage : Nat) (status : StatusTag) (resolution : ResolutionTag)
  /-- The reserved op-select code `0xF` (R54). -/
  | reservedF
  deriving DecidableEq, Repr

/-- R57: "An operand is a number ..., a variant name (... standing for its tag), or a host temporary". A variant name is
the number that is its tag. -/
inductive Source where
  | lit (n : Nat)
  | temp (t : Nat)
  deriving DecidableEq, Repr

/-- One source placed in an operand field by the host: shifted right (the host's work of program P3) and then left (the
position `b[3]` of a resolution tag, R57). -/
structure Term where
  source : Source
  shiftRight : Nat
  shiftLeft : Nat
  deriving DecidableEq, Repr

/-- What a host temporary may hold: "one response or one response field" (R31): the response word, its three fields (R46),
and the two tags that the forms of R57 take out of `r1`. -/
inductive RspField where
  /-- The first result `r0`. -/
  | r0
  /-- The second result `r1`. -/
  | r1
  /-- `r1[2:0]`, a `StatusCode` tag. -/
  | r1Status
  /-- `r1[3]`, a `ResolutionCode` tag. -/
  | r1Resolution
  /-- The bit `ill` (R46), as the number 0 or 1. -/
  | ill
  /-- The whole response word (R46). -/
  | whole
  deriving DecidableEq, Repr

/-- One command of the host's sequence (R14, R57): the op-select code, the sources of `a` and of `b` (bitwise OR of the
terms, an empty list is 0: "Bits of `a` and `b` that a form does not set are written as 0"), and the temporaries that
sample the response, in order. -/
structure HostCmd where
  op : OpSel
  a : List Term
  b : List Term
  dests : List (Nat × RspField)
  deriving DecidableEq, Repr

end Sys2Proof
end

