-- ==== Sys2Proof/WellFormed.lean ====
section
/-! DEFINITION. What an instruction, a command word's fields and a host program must satisfy: operands fit the
`SEMW`-bit ports (R45, R50), and a program reads only temporaries it has written (R31). -/

namespace Sys2Proof

/-- A value an `SEMW`-bit field can carry. -/
def Config.fits (c : Config) (v : Nat) : Bool := decide (v < 2 ^ c.semw)

/-- The fields of a command word are within their widths (R45). -/
def Cmd.wf (c : Config) (cmd : Cmd) : Bool := c.fits cmd.a && c.fits cmd.b

/-- An instruction whose every semantic operand is a number of `SEMW` bits (R50). A tag, a nibble or a byte is within
its width by its type. -/
def Instr.wf (c : Config) : Instr → Bool
  | .scDec raw => c.fits raw
  | .scEnc _ => true
  | .reserved2 => true
  | .reserved3 => true
  | .rcDec raw => c.fits raw
  | .rcEnc _ => true
  | .rcMul _ => true
  | .reserved7 => true
  | .biDec _ => true
  | .biEnc _ identifier => c.fits identifier
  | .biCon count identifier => c.fits count && c.fits identifier
  | .reservedB => true
  | .bdfDec _ => true
  | .bdfEnc _ _ _ => true
  | .bdfCon coarseVoltage _ _ => c.fits coarseVoltage
  | .reservedF => true

/-- The source is a number, or a temporary that is among the written ones. -/
def Source.readsOnly (written : List Nat) : Source → Bool
  | .lit _ => true
  | .temp t => written.contains t

/-- Every temporary the command reads is among the written ones. -/
def HostCmd.readsOnly (written : List Nat) (h : HostCmd) : Bool :=
  (h.a ++ h.b).all fun term => term.source.readsOnly written

/-- R31: "a program that reads one is ill-formed": every temporary a command reads is among `written` or is written by an
earlier command of the program. -/
def programWf (written : List Nat) : List HostCmd → Bool
  | [] => true
  | h :: rest => h.readsOnly written && programWf (h.dests.map Prod.fst ++ written) rest

end Sys2Proof
end

