-- ==== Sys2Proof/Decode.lean ====
section
/-! DEFINITION. The packing of the command word (R45), the decoder, total on every number (R61), and after it the encoder
written from the same tables (R48, R50). -/

namespace Sys2Proof

/-- R45: "As a number, `cmd = op + a * 16 + b * 2^(SEMW+4)`". -/
def cmdWord (c : Config) (cmd : Cmd) : Nat :=
  cmd.op.toNat + cmd.a * 16 + cmd.b * 2 ^ (c.semw + 4)

/-- R45: `op = cmd[3:0]`, `a = cmd[SEMW+3:4]`, `b = cmd[2*SEMW+3:SEMW+4]`. -/
def cmdOfWord (c : Config) (word : Nat) : Cmd :=
  { op := BitVec.ofNat 4 word
    a := (word >>> 4) % 2 ^ c.semw
    b := (word >>> (c.semw + 4)) % 2 ^ c.semw }

/-- R44: the number of bits of a command word. -/
def cmdWidth (c : Config) : Nat := 2 * c.semw + 4

/-- R50: the low byte of an operand field, the raw byte of a structure decode. -/
def rawByte (v : Nat) : Byte := BitVec.ofNat 8 v

/-- R50: the low nibble `a[3:0]`, a `count` or a `coarseVoltage`. -/
def nibbleField (v : Nat) : Nibble := BitVec.ofNat 4 v

/-- R50: bits 2:0 of an operand field, a `StatusCode` tag. -/
def statusField (v : Nat) : StatusTag := BitVec.ofNat 3 v

/-- R50: bit 0 of an operand field, a `ResolutionCode` tag (`SC` and `RC` operations take their tag from `a`). -/
def resolutionField (v : Nat) : ResolutionTag := BitVec.ofNat 1 v

/-- R50: bit 3 of the operand field `b`, the `ResolutionCode` tag of the two `BDF` operations that take one. -/
def resolutionField3 (v : Nat) : ResolutionTag := BitVec.ofNat 1 (v >>> 3)

/-- R48 and R50: the operation `cmd.op` selects, with the operand bits it reads. "No other bit of `cmd` takes part in the
selection". The last arm is the code `0xF`, the only one left. -/
def instrOfCmd (cmd : Cmd) : Instr :=
  match cmd.op.toNat with
  | 0x0 => .scDec cmd.a
  | 0x1 => .scEnc (statusField cmd.a)
  | 0x2 => .reserved2
  | 0x3 => .reserved3
  | 0x4 => .rcDec cmd.a
  | 0x5 => .rcEnc (resolutionField cmd.a)
  | 0x6 => .rcMul (resolutionField cmd.a)
  | 0x7 => .reserved7
  | 0x8 => .biDec (rawByte cmd.a)
  | 0x9 => .biEnc (nibbleField cmd.a) cmd.b
  | 0xA => .biCon cmd.a cmd.b
  | 0xB => .reservedB
  | 0xC => .bdfDec (rawByte cmd.a)
  | 0xD => .bdfEnc (nibbleField cmd.a) (statusField cmd.b) (resolutionField3 cmd.b)
  | 0xE => .bdfCon cmd.a (statusField cmd.b) (resolutionField3 cmd.b)
  | _ => .reservedF

/-- Why a number is no command word. -/
inductive DecodeError where
  /-- It has a bit above the `2*SEMW + 4` bits of a command word (R44). -/
  | wordTooWide
  deriving DecidableEq, Repr

/-- The decoder: every one of the `2^(2*SEMW+4)` command words is an instruction (R61); any other number is rejected by
name. -/
def decode (c : Config) (word : Nat) : Except DecodeError Instr :=
  if word < 2 ^ cmdWidth c then .ok (instrOfCmd (cmdOfWord c word)) else .error .wordTooWide

/-- The host's view of the decoder, at the table's `SEMW = 8`: the instruction whose bits are the low `nbits` bits of
`w`. The 20 bits of the word stand in whole bytes, whose bits above 19 are not wired to the port (log entry 11). -/
def tableWord (nbits w : Nat) : Nat := w % 2 ^ nbits % 2 ^ cmdWidth Config.default

/-- The instruction the decoder reads from a table row's word. -/
def decodeTableWord (nbits w : Nat) : Option Instr :=
  match decode Config.default (tableWord nbits w) with
  | .ok i => some i
  | .error _ => none

/-- R57: the two tags of a descriptive field side by side, `b[2:0]` and `b[3]` (and `r1[2:0]` and `r1[3]`, R51). -/
def tagPair (status : StatusTag) (resolution : ResolutionTag) : Nat :=
  status.toNat ||| (resolution.toNat <<< 3)

/-- R48, R50, R57: the command fields of an instruction, "Bits of `a` and `b` that a form does not set are written as
0". -/
def cmdOfInstr : Instr → Cmd
  | .scDec raw => ⟨0x0#4, raw, 0⟩
  | .scEnc status => ⟨0x1#4, status.toNat, 0⟩
  | .reserved2 => ⟨0x2#4, 0, 0⟩
  | .reserved3 => ⟨0x3#4, 0, 0⟩
  | .rcDec raw => ⟨0x4#4, raw, 0⟩
  | .rcEnc resolution => ⟨0x5#4, resolution.toNat, 0⟩
  | .rcMul resolution => ⟨0x6#4, resolution.toNat, 0⟩
  | .reserved7 => ⟨0x7#4, 0, 0⟩
  | .biDec raw => ⟨0x8#4, raw.toNat, 0⟩
  | .biEnc count identifier => ⟨0x9#4, count.toNat, identifier⟩
  | .biCon count identifier => ⟨0xA#4, count, identifier⟩
  | .reservedB => ⟨0xB#4, 0, 0⟩
  | .bdfDec raw => ⟨0xC#4, raw.toNat, 0⟩
  | .bdfEnc coarseVoltage status resolution => ⟨0xD#4, coarseVoltage.toNat, tagPair status resolution⟩
  | .bdfCon coarseVoltage status resolution => ⟨0xE#4, coarseVoltage, tagPair status resolution⟩
  | .reservedF => ⟨0xF#4, 0, 0⟩

/-- The command word of an instruction. -/
def encode (c : Config) (i : Instr) : Nat := cmdWord c (cmdOfInstr i)

end Sys2Proof
end

