-- ==== Sys2Proof/Machine/State.lean ====
section
/-! DEFINITION. The state of a run. The engine holds nothing (R15 to R20): what stands here is the build parameter (R6),
the two ports (R28), and what R31 lets a model of a run keep: the host's remaining commands, the host's temporaries and
the model's fault mark. -/

namespace Sys2Proof.Machine

/-- What a run holds, as plain data. -/
structure State where
  /-- The build parameter `SEMW` (R6, R18): no step writes it (log entry 1). -/
  cfg : Config
  /-- The input port: the command word the host presents (R28, R45). -/
  cmd : Cmd
  /-- The output port: the engine's response to the word on `cmd` (R28, R46). -/
  rsp : Rsp
  /-- The host's commands not presented yet, the next one first (R14; log entry 3). -/
  pending : List HostCmd
  /-- The host's temporaries that hold a value, indices strictly rising (R31; log entry 5). -/
  temps : List (Nat × Nat)
  /-- The model's mark: some command of the run got the illegal-command response (R31; log entry 6). -/
  faultMark : Bool
  deriving DecidableEq, Repr

/-- Why a run stops as faulted. -/
inductive Fault where
  /-- Raised by the fetch of a host command that reads a temporary nothing has written: R31, "a model should fault it and
  not supply a zero". Safe: the run stops where the spec gives no value. -/
  | unwrittenTemporary (t : Nat)
  deriving DecidableEq, Repr

/-- Why a step has no meaning. -/
inductive Refusal where
  /-- An instruction that has no meaning yet, by its mnemonic. No arm of `exec` answers with it. Safe. -/
  | notModelled (mnemonic : String)
  /-- Raised by the step when the host's sequence is exhausted: that is the end of the run (R14, R111; log entry 4), and
  there is no command to give a meaning to. Safe. -/
  | runEnded
  /-- Raised by the fetch when an operand of the host's command has more than `SEMW` bits: no command word carries it
  (R45, U6, N2; log entry 8), so nothing can be presented. Safe. -/
  | notACommandWord
  deriving DecidableEq, Repr

/-- From power-up `rsp = Exec(cmd)` for whatever is on `cmd` (R30, R104): the wires of `cmd` are all zero here (log entry
2), whose response is all zero; no command has been given, every temporary is unwritten, the mark is clear. -/
def State.reset : State :=
  { cfg := Config.default
    cmd := ⟨0#4, 0, 0⟩
    rsp := ⟨0, 0, false⟩
    pending := []
    temps := []
    faultMark := false }

end Sys2Proof.Machine
end

