-- ==== Sys2Proof/Machine/Codec.lean ====
section
/-! DEFINITION. The pure functions of files 40, 41 and 42, on abstract operands and free of the transport: the enumeration
validators with their fallback table, the two structure codecs, and the name table. -/

namespace Sys2Proof.Machine

/-- R62 `F_sc_decode`: the variant whose code is the number, `Invalid` for every other number. -/
def scDecode (x : Nat) : StatusCode :=
  match x with
  | 0 => .reserved
  | 1 => .new
  | 2 => .good
  | 3 => .ok
  | 4 => .low
  | 5 => .critical
  | 7 => .invalid
  | _ => .invalid

/-- R21 and R63 `F_sc_encode`: the numeric code of a variant, which is also its tag (R27). -/
def scEncode : StatusCode → StatusTag
  | .reserved => 0#3
  | .new => 1#3
  | .good => 2#3
  | .ok => 3#3
  | .low => 4#3
  | .critical => 5#3
  | .invalid => 7#3

/-- R66 `F_rc_decode`: `SixteenSecond` for 0, `TwoSecond` for every other number. -/
def rcDecode (x : Nat) : ResolutionCode :=
  match x with
  | 0 => .sixteenSecond
  | _ => .twoSecond

/-- R22 and R67 `F_rc_encode`: the numeric code of a variant, which is also its tag (R27). -/
def rcEncode : ResolutionCode → ResolutionTag
  | .sixteenSecond => 0#1
  | .twoSecond => 1#1

/-- R67 `F_rc_multiplier`: a constant of the variant; nothing is multiplied (D15). -/
def rcMultiplier : ResolutionCode → Nat
  | .sixteenSecond => 16
  | .twoSecond => 2

/-- R27: a `StatusCode`-typed operand field is read "through the same look-up table as decode": `110` is `Invalid`
(D11). -/
def statusOfTag (tag : StatusTag) : StatusCode := scDecode tag.toNat

/-- R27: every one-bit pattern is the tag of a `ResolutionCode`. -/
def resolutionOfTag (tag : ResolutionTag) : ResolutionCode := rcDecode tag.toNat

/-- R10: the clamp, "by taking the minimum with 15", carried in four bits. -/
def clamp (x : Nat) : Nibble := BitVec.ofNat 4 (min x clampBound)

/-- R10 `trunc_8`: narrowing to 8 bits, high bits "are lost". -/
def trunc8 (x : Nat) : Byte := BitVec.ofNat 8 x

/-- R73 `F_bi_decode`: `count` from the low nibble, `identifier` from the high nibble, by masking and shifting. -/
def biDecode (raw : Byte) : BatteryIdentifier :=
  { count := BitVec.ofNat 4 (raw.toNat &&& 0x0F)
    identifier := (raw.toNat >>> 4) &&& 0x0F }

/-- R75 `F_bi_construct`: `count` clamped, `identifier` stored as given. -/
def biConstruct (count identifier : Nat) : BatteryIdentifier :=
  { count := clamp count
    identifier := identifier }

/-- R76 `F_bi_encode`: `trunc_8(count | (identifier << 4))`. -/
def biEncode (v : BatteryIdentifier) : Byte :=
  trunc8 (v.count.toNat ||| (v.identifier <<< 4))

/-- R81 `F_bdf_decode`. -/
def bdfDecode (raw : Byte) : BatteryDescriptiveField :=
  { coarseVoltage := BitVec.ofNat 4 (raw.toNat &&& 0x0F)
    status := scDecode ((raw.toNat >>> 4) &&& 0x07)
    resolution := rcDecode ((raw.toNat >>> 7) &&& 0x01) }

/-- R83 `F_bdf_construct`: `coarseVoltage` clamped, `status` and `resolution` stored as given. -/
def bdfConstruct (coarseVoltage : Nat) (status : StatusCode) (resolution : ResolutionCode) : BatteryDescriptiveField :=
  { coarseVoltage := clamp coarseVoltage
    status := status
    resolution := resolution }

/-- R84 `F_bdf_encode`, before it is seen as a byte: R85, no bit of it can lie above bit 7. -/
def bdfOr (v : BatteryDescriptiveField) : Nat :=
  v.coarseVoltage.toNat ||| ((scEncode v.status).toNat <<< 4) ||| ((rcEncode v.resolution).toNat <<< 7)

/-- R84 `F_bdf_encode` as a raw byte. -/
def bdfEncode (v : BatteryDescriptiveField) : Byte := BitVec.ofNat 8 (bdfOr v)

/-- R71: the name of a `StatusCode` tag; tag 6 has no name. No engine operation returns it (D14; log entry 12). -/
def statusTagName (tag : StatusTag) : Option String :=
  match tag.toNat with
  | 0 => some "Reserved"
  | 1 => some "New"
  | 2 => some "Good"
  | 3 => some "Ok"
  | 4 => some "Low"
  | 5 => some "Critical"
  | 7 => some "Invalid"
  | _ => none

/-- R71: the name of a `ResolutionCode` tag. -/
def resolutionTagName (tag : ResolutionTag) : Option String :=
  match tag.toNat with
  | 0 => some "SixteenSecond"
  | _ => some "TwoSecond"

end Sys2Proof.Machine
end

