-- ==== Sys2Proof/Machine/Flags.lean ====
section
/-! DEFINITION. The flags. The engine holds none (R17): there is the bit `ill` of the current response (R46), and the mark
a model of a run keeps for itself (R31). -/

namespace Sys2Proof.Machine

/-- R46: `ill` of a command that selects an operation: no operation raises anything (R11, R90). -/
def illClear : Bool := false

/-- R89: `ill` of a command that selects no operation. -/
def illRaised : Bool := true

/-- R31 and D20: the model's mark after a response, sticky (log entry 6). -/
def markAfter (mark ill : Bool) : Bool := mark || ill

/-- The number that the bit `ill` is in a response word (R46). -/
def illBit (ill : Bool) : Nat := if ill then 1 else 0

end Sys2Proof.Machine
end

