-- ==== Sys2Proof/Machine/Operands.lean ====
section
/-! DEFINITION. The host's side of a command: the temporaries (R31), the value of an operand (R57), the response word and
its fields (R46), and the one-line forms of R57. -/

namespace Sys2Proof.Machine

/-- The value a temporary holds, none where nothing has written it (R31). -/
def readTemp (temps : List (Nat × Nat)) (t : Nat) : Option Nat :=
  match temps with
  | [] => none
  | (k, v) :: rest => if k = t then some v else readTemp rest t

/-- Writing a temporary keeps the list in rising order of indices, one entry an index. -/
def writeTemp (temps : List (Nat × Nat)) (t v : Nat) : List (Nat × Nat) :=
  match temps with
  | [] => [(t, v)]
  | (k, w) :: rest =>
    if t < k then (t, v) :: (k, w) :: rest
    else if t = k then (t, v) :: rest
    else (k, w) :: writeTemp rest t v

/-- The value of a source; R31: reading a temporary nothing has written is a fault. -/
def sourceValue (temps : List (Nat × Nat)) (src : Source) : Except Fault Nat :=
  match src with
  | .lit n => .ok n
  | .temp t =>
    match readTemp temps t with
    | some v => .ok v
    | none => .error (.unwrittenTemporary t)

/-- The value of a term: the source shifted right and then placed (R57, program P3). -/
def termValue (temps : List (Nat × Nat)) (term : Term) : Except Fault Nat :=
  match sourceValue temps term.source with
  | .ok v => .ok ((v >>> term.shiftRight) <<< term.shiftLeft)
  | .error f => .error f

/-- The value of an operand: the OR of its terms, 0 for an operand a form does not set (R57; log entry 10). The first
unwritten temporary is the one reported. -/
def operandValue (temps : List (Nat × Nat)) (terms : List Term) : Except Fault Nat :=
  match terms with
  | [] => .ok 0
  | term :: rest =>
    match termValue temps term with
    | .error f => .error f
    | .ok v =>
      match operandValue temps rest with
      | .error f => .error f
      | .ok w => .ok (v ||| w)

/-- R46: "As a number, `rsp = r0 + r1 * 2^SEMW + ill * 2^(2*SEMW)`". -/
def rspWord (c : Config) (rsp : Rsp) : Nat :=
  rsp.r0 + rsp.r1 * 2 ^ c.semw + illBit rsp.ill * 2 ^ (2 * c.semw)

/-- R46: `r0 = rsp[SEMW-1:0]`, `r1 = rsp[2*SEMW-1:SEMW]`, `ill = rsp[2*SEMW]`. -/
def rspOfWord (c : Config) (word : Nat) : Rsp :=
  { r0 := word % 2 ^ c.semw
    r1 := (word >>> c.semw) % 2 ^ c.semw
    ill := word.testBit (2 * c.semw) }

/-- What a temporary that samples the response takes (R31, R46, R57). -/
def fieldValue (c : Config) (rsp : Rsp) (field : RspField) : Nat :=
  match field with
  | .r0 => rsp.r0
  | .r1 => rsp.r1
  | .r1Status => rsp.r1 % 8
  | .r1Resolution => (rsp.r1 >>> 3) % 2
  | .ill => illBit rsp.ill
  | .whole => rspWord c rsp

/-- The host samples the response into the temporaries of a command, in order (R31, R107; log entry 7). -/
def sampleTemps (c : Config) (rsp : Rsp) (temps : List (Nat × Nat)) (dests : List (Nat × RspField)) :
    List (Nat × Nat) :=
  match dests with
  | [] => temps
  | (t, field) :: rest => sampleTemps c rsp (writeTemp temps t (fieldValue c rsp field)) rest

/-- A whole operand from one source, the position of every operand but the two tags of a `BDF` form (R57). -/
def whole (src : Source) : List Term := [⟨src, 0, 0⟩]

/-- `b[2:0] = status`, `b[3] = resolution` (R57). -/
def tagTerms (status resolution : Source) : List Term := [⟨status, 0, 0⟩, ⟨resolution, 0, 3⟩]

/-- R57: `t <- SC.DEC raw`. -/
def formScDec (t : Nat) (raw : Source) : HostCmd := ⟨0x0#4, whole raw, [], [(t, .r0)]⟩

/-- R57: `t <- SC.ENC status`. -/
def formScEnc (t : Nat) (status : Source) : HostCmd := ⟨0x1#4, whole status, [], [(t, .r0)]⟩

/-- R57: `t <- RC.DEC raw`. -/
def formRcDec (t : Nat) (raw : Source) : HostCmd := ⟨0x4#4, whole raw, [], [(t, .r0)]⟩

/-- R57: `t <- RC.ENC resolution`. -/
def formRcEnc (t : Nat) (resolution : Source) : HostCmd := ⟨0x5#4, whole resolution, [], [(t, .r0)]⟩

/-- R57: `t <- RC.MUL resolution`. -/
def formRcMul (t : Nat) (resolution : Source) : HostCmd := ⟨0x6#4, whole resolution, [], [(t, .r0)]⟩

/-- R57: `(t, u) <- BI.DEC byte`. -/
def formBiDec (t u : Nat) (byte : Source) : HostCmd := ⟨0x8#4, whole byte, [], [(t, .r0), (u, .r1)]⟩

/-- R57: `(t, u) <- BI.CON count, identifier`. -/
def formBiCon (t u : Nat) (count identifier : Source) : HostCmd :=
  ⟨0xA#4, whole count, whole identifier, [(t, .r0), (u, .r1)]⟩

/-- R57: `t <- BI.ENC count, identifier`. -/
def formBiEnc (t : Nat) (count identifier : Source) : HostCmd := ⟨0x9#4, whole count, whole identifier, [(t, .r0)]⟩

/-- R57: `(t, s, r) <- BDF.DEC byte`. -/
def formBdfDec (t s r : Nat) (byte : Source) : HostCmd :=
  ⟨0xC#4, whole byte, [], [(t, .r0), (s, .r1Status), (r, .r1Resolution)]⟩

/-- R57: `(t, s, r) <- BDF.CON coarseVoltage, status, resolution`. -/
def formBdfCon (t s r : Nat) (coarseVoltage status resolution : Source) : HostCmd :=
  ⟨0xE#4, whole coarseVoltage, tagTerms status resolution, [(t, .r0), (s, .r1Status), (r, .r1Resolution)]⟩

/-- R57: `t <- BDF.ENC coarseVoltage, status, resolution`. -/
def formBdfEnc (t : Nat) (coarseVoltage status resolution : Source) : HostCmd :=
  ⟨0xD#4, whole coarseVoltage, tagTerms status resolution, [(t, .r0)]⟩

/-- Programs P2 and P3: `(t, u) <- BDF.DEC byte`, "`u` holds both tags, `r1[3:0]`". -/
def formBdfDecPair (t u : Nat) (byte : Source) : HostCmd := ⟨0xC#4, whole byte, [], [(t, .r0), (u, .r1)]⟩

/-- R60 for `BDF.CON`: its two results kept as they are, to be copied into `BDF.ENC`. -/
def formBdfConPair (t u : Nat) (coarseVoltage status resolution : Source) : HostCmd :=
  ⟨0xE#4, whole coarseVoltage, tagTerms status resolution, [(t, .r0), (u, .r1)]⟩

/-- Program P2: `t <- BDF.ENC coarseVoltage, tags`, both tags in one source, "copied `b <- r1`" (R60). -/
def formBdfEncPair (t : Nat) (coarseVoltage tags : Source) : HostCmd :=
  ⟨0xD#4, whole coarseVoltage, whole tags, [(t, .r0)]⟩

/-- Program P3: `t <- RC.MUL (a = tags >> 3)`: "the host moves r1[3] to a[0]". -/
def formRcMulOfPair (t : Nat) (tags : Source) : HostCmd := ⟨0x6#4, [⟨tags, 3, 0⟩], [], [(t, .r0)]⟩

end Sys2Proof.Machine
end

