-- ==== Sys2Proof/Machine/Ops.lean ====
section
/-! DEFINITION. The named operations on the state: presenting a command (the fetch), answering it, the illegal-command
response as one shared operation, and sampling the response. There is no memory and no register to operate on (R15,
R32). -/

namespace Sys2Proof.Machine

/-- The engine drives a response on its output port; the model's mark records an `ill` (R31, R46). -/
def putRsp (rsp : Rsp) (s : State) : State :=
  { s with rsp := rsp, faultMark := markAfter s.faultMark rsp.ill }

/-- The response of an operation: `r0`, `r1` and `ill = 0` (R51, R90). -/
def answer (r0 r1 : Nat) (s : State) : Host.Outcome State Fault Refusal :=
  .next (putRsp ⟨r0, r1, illClear⟩ s)

/-- R89 `raise ILL(op)`: `r0 = r1 = 0`, `ill = 1`, "and nothing else": nothing is latched, no cause code, no trap entry
(R93), and hence nothing to return from (R94). The reserved code itself is recorded nowhere. -/
def raiseIll (s : State) : Host.Outcome State Fault Refusal :=
  .next (putRsp ⟨0, 0, illRaised⟩ s)

/-- The command word goes on the port and leaves the host's sequence. -/
def presentWord (op : OpSel) (a b : Nat) (s : State) : State :=
  { s with cmd := ⟨op, a, b⟩, pending := s.pending.tail }

/-- The host presents its next command (R14, R102): the operands are read (`a` first), the word is formed and driven on
`cmd`. A read of an unwritten temporary faults (R31); operands that no command word carries are refused (log entry 8). -/
def present (h : HostCmd) (s : State) : Host.Outcome State Fault Refusal :=
  match operandValue s.temps h.a with
  | .error f => .fault f
  | .ok a =>
    match operandValue s.temps h.b with
    | .error f => .fault f
    | .ok b =>
      if Cmd.wf s.cfg ⟨h.op, a, b⟩ then .next (presentWord h.op a b s) else .refused .notACommandWord

/-- The engine reads the command word on its port (R47): the number of R45, given to the decoder. -/
def fetchInstr (s : State) : Except DecodeError Instr := decode s.cfg (cmdWord s.cfg s.cmd)

/-- The host samples the response on `rsp` (R102, R107). -/
def sample (dests : List (Nat × RspField)) (s : State) : State :=
  { s with temps := sampleTemps s.cfg s.rsp s.temps dests }

/-- A command whose fields are those of a table row's word, read at the table's `SEMW = 8` (log entry 11). -/
def hostCmdOfWord (nbits w : Nat) : HostCmd :=
  let cmd := cmdOfWord Config.default (tableWord nbits w)
  ⟨cmd.op, whole (.lit cmd.a), whole (.lit cmd.b), []⟩

end Sys2Proof.Machine
end

