-- ==== Sys2Proof/Machine/Descriptive.lean ====
section
/-! DEFINITION. The three `BatteryDescriptiveField` operations of 42_battery_descriptive_field.md. -/

namespace Sys2Proof.Machine

/-- R51: a `BatteryDescriptiveField` leaves the engine as `coarseVoltage` in `r0`, the `StatusCode` tag in `r1[2:0]` and
the `ResolutionCode` tag in `r1[3]`. -/
def answerDescriptive (v : BatteryDescriptiveField) (s : State) : Host.Outcome State Fault Refusal :=
  answer v.coarseVoltage.toNat (tagPair (scEncode v.status) (rcEncode v.resolution)) s

/-- R81 `BDF.DEC`. -/
def execBdfDec (raw : Byte) (s : State) : Host.Outcome State Fault Refusal :=
  answerDescriptive (bdfDecode raw) s

/-- R84 `BDF.ENC`: the status tag is read through the validator (R27, D11). -/
def execBdfEnc (coarseVoltage : Nibble) (status : StatusTag) (resolution : ResolutionTag) (s : State) :
    Host.Outcome State Fault Refusal :=
  answer (bdfEncode ⟨coarseVoltage, statusOfTag status, resolutionOfTag resolution⟩).toNat 0 s

/-- R83 `BDF.CON`: `coarseVoltage` saturates silently; the tags are read through the validators and stored. -/
def execBdfCon (coarseVoltage : Nat) (status : StatusTag) (resolution : ResolutionTag) (s : State) :
    Host.Outcome State Fault Refusal :=
  answerDescriptive (bdfConstruct coarseVoltage (statusOfTag status) (resolutionOfTag resolution)) s

end Sys2Proof.Machine
end

