-- ==== Sys2Proof/Machine/Enumeration.lean ====
section
/-! DEFINITION. The five enumeration operations of 40_enum_validators.md. -/

namespace Sys2Proof.Machine

/-- R64 `SC.DEC`: the tag of `F_sc_decode` of the whole operand. -/
def execScDec (raw : Nat) (s : State) : Host.Outcome State Fault Refusal :=
  answer (scEncode (scDecode raw)).toNat 0 s

/-- R65 `SC.ENC`: the tag is read through the validator, so `110` gives 7 (R27, D11). -/
def execScEnc (status : StatusTag) (s : State) : Host.Outcome State Fault Refusal :=
  answer (scEncode (statusOfTag status)).toNat 0 s

/-- R68 `RC.DEC`: "the test is on the whole operand, not on bit 0". -/
def execRcDec (raw : Nat) (s : State) : Host.Outcome State Fault Refusal :=
  answer (rcEncode (rcDecode raw)).toNat 0 s

/-- R69 `RC.ENC`: "only bit 0 of `a` is read". -/
def execRcEnc (resolution : ResolutionTag) (s : State) : Host.Outcome State Fault Refusal :=
  answer (rcEncode (resolutionOfTag resolution)).toNat 0 s

/-- R70 `RC.MUL`: one of two constants. -/
def execRcMul (resolution : ResolutionTag) (s : State) : Host.Outcome State Fault Refusal :=
  answer (rcMultiplier (resolutionOfTag resolution)) 0 s

end Sys2Proof.Machine
end

