-- ==== Sys2Proof/Machine/Identifier.lean ====
section
/-! DEFINITION. The three `BatteryIdentifier` operations of 41_battery_identifier.md. -/

namespace Sys2Proof.Machine

/-- R51: a `BatteryIdentifier` leaves the engine as `count` in `r0` and `identifier` in `r1`. -/
def answerIdentifier (v : BatteryIdentifier) (s : State) : Host.Outcome State Fault Refusal :=
  answer v.count.toNat v.identifier s

/-- R73 `BI.DEC`. -/
def execBiDec (raw : Byte) (s : State) : Host.Outcome State Fault Refusal :=
  answerIdentifier (biDecode raw) s

/-- R76 `BI.ENC`: the loss of high bits of `identifier` is silent. -/
def execBiEnc (count : Nibble) (identifier : Nat) (s : State) : Host.Outcome State Fault Refusal :=
  answer (biEncode ⟨count, identifier⟩).toNat 0 s

/-- R75 `BI.CON`: `count` saturates silently, `identifier` is unchanged, "all SEMW bits". -/
def execBiCon (count identifier : Nat) (s : State) : Host.Outcome State Fault Refusal :=
  answerIdentifier (biConstruct count identifier) s

end Sys2Proof.Machine
end

