-- ==== Sys2Proof/Machine/Reserved.lean ====
section
/-! DEFINITION. The five reserved op-select codes: each gives the illegal-command response (R54, R89). Their operands are
ignored (R52). -/

namespace Sys2Proof.Machine

/-- R89: op-select code `0x2`. -/
def execReserved2 (s : State) : Host.Outcome State Fault Refusal := raiseIll s

/-- R89: op-select code `0x3`. -/
def execReserved3 (s : State) : Host.Outcome State Fault Refusal := raiseIll s

/-- R89: op-select code `0x7`. -/
def execReserved7 (s : State) : Host.Outcome State Fault Refusal := raiseIll s

/-- R89: op-select code `0xB`. -/
def execReservedB (s : State) : Host.Outcome State Fault Refusal := raiseIll s

/-- R89: op-select code `0xF`. -/
def execReservedF (s : State) : Host.Outcome State Fault Refusal := raiseIll s

end Sys2Proof.Machine
end

