-- ==== Sys2Proof/Machine/Dispatch.lean ====
section
/-! DEFINITION. R47: the case analysis of `Exec`, one arm per constructor of `Instr`. -/

namespace Sys2Proof.Machine

def exec (i : Instr) (s : State) : Host.Outcome State Fault Refusal :=
  match i with
  | .scDec raw => Sys2Proof.Machine.execScDec raw s
  | .scEnc status => Sys2Proof.Machine.execScEnc status s
  | .reserved2 => Sys2Proof.Machine.execReserved2 s
  | .reserved3 => Sys2Proof.Machine.execReserved3 s
  | .rcDec raw => Sys2Proof.Machine.execRcDec raw s
  | .rcEnc resolution => Sys2Proof.Machine.execRcEnc resolution s
  | .rcMul resolution => Sys2Proof.Machine.execRcMul resolution s
  | .reserved7 => Sys2Proof.Machine.execReserved7 s
  | .biDec raw => Sys2Proof.Machine.execBiDec raw s
  | .biEnc count identifier => Sys2Proof.Machine.execBiEnc count identifier s
  | .biCon count identifier => Sys2Proof.Machine.execBiCon count identifier s
  | .reservedB => Sys2Proof.Machine.execReservedB s
  | .bdfDec raw => Sys2Proof.Machine.execBdfDec raw s
  | .bdfEnc coarseVoltage status resolution => Sys2Proof.Machine.execBdfEnc coarseVoltage status resolution s
  | .bdfCon coarseVoltage status resolution => Sys2Proof.Machine.execBdfCon coarseVoltage status resolution s
  | .reservedF => Sys2Proof.Machine.execReservedF s

end Sys2Proof.Machine
end

