-- ==== Sys2Proof/Machine/Cycle.lean ====
section
/-! DEFINITION. What one command of the host does: it is presented, the engine answers, the host samples the response. -/

namespace Sys2Proof.Machine

/-- The engine answers the word on its port. A number that is no command word is refused; after `present` the fields fit
the word, so that arm is not reached from a step. -/
def engineStep (s : State) : Host.Outcome State Fault Refusal :=
  match fetchInstr s with
  | .error _ => .refused .notACommandWord
  | .ok i => exec i s

/-- One command of the host's sequence, on the state that holds it: present, answer, sample. -/
def runCommand (h : HostCmd) (s : State) : Host.Outcome State Fault Refusal :=
  match present h s with
  | .fault f => .fault f
  | .refused r => .refused r
  | .next s1 =>
    match engineStep s1 with
    | .fault f => .fault f
    | .refused r => .refused r
    | .next s2 => .next (sample h.dests s2)

end Sys2Proof.Machine
end

