-- ==== Sys2Proof/Machine/Step.lean ====
section
/-! DEFINITION. One step of a run: one command, atomically (R14): the host presents its next command on `cmd`, the engine
answers on `rsp` (R47), the host samples the response (R102). -/

namespace Sys2Proof.Machine

/-- R14: one command is one step; "the end of a run is the exhaustion of the host's sequence" (log entry 4). -/
def step (s : State) : Host.Outcome State Fault Refusal :=
  match s.pending with
  | [] => .refused .runEnded
  | h :: _ => runCommand h s

/-- The state in which the host presents the table row's word next (log entries 3 and 11). -/
def State.withFetchWord (s : State) (nbits w : Nat) : State :=
  { s with pending := hostCmdOfWord nbits w :: s.pending }

end Sys2Proof.Machine
end

