-- ==== Sys2Proof/Safety.lean ====
section
/-! DEFINITION. The terms in which claims speak of runs: what the engine answers, the port invariant, a final run, and the
operation map R47 to R51 once more as plain arithmetic on numbers, to hold the machine against. -/

namespace Sys2Proof.Safety

open Sys2Proof.Machine

/-- `rsp = Exec(cmd)` (R47): in every state the operation that `cmd` selects answers `rsp`. -/
def answers (cmd : Cmd) (rsp : Rsp) : Prop :=
  ∀ s : State, ∃ t : State, exec (instrOfCmd cmd) s = .next t ∧ t.rsp = rsp

/-- The canonical form of the temporaries: indices strictly rising. -/
abbrev tempsRising (temps : List (Nat × Nat)) : Prop := (temps.map Prod.fst).Pairwise (· < ·)

/-- What holds of a run at every moment. -/
structure Inv (s : State) : Prop where
  /-- The port `cmd` carries a command word (R45). -/
  cmdFits : s.cmd.wf s.cfg = true
  /-- The fields of the port `rsp` are within their widths (R46). -/
  rspFits : s.rsp.r0 < 2 ^ s.cfg.semw ∧ s.rsp.r1 < 2 ^ s.cfg.semw
  /-- R28: "`rsp` is at all times the function `Exec(cmd)`". -/
  rspIsExec : answers s.cmd s.rsp
  /-- The temporaries are in their canonical form. -/
  temps : tempsRising s.temps
  /-- R31: the mark records an illegal-command response. -/
  marked : s.rsp.ill = true → s.faultMark = true

/-- R111: the end of a run that is final: the sequence is exhausted and no response had `ill = 1`. That every temporary
read had been written is that no step faulted. -/
def final (s : State) : Bool := s.pending.isEmpty && !s.faultMark

/-- The temporaries a command reads. -/
def readsOf (h : HostCmd) : List Nat :=
  (h.a ++ h.b).filterMap fun term =>
    match term.source with
    | .lit _ => none
    | .temp t => some t

/-- The temporaries a command writes. -/
def writesOf (h : HostCmd) : List Nat := h.dests.map Prod.fst

/-- Neither command reads a temporary that the other samples into, so that no order of the two changes an operand. R40
and R108 name the use of a temporary after the command that wrote it; that a command which samples into a temporary the
other reads is dependent on it in either order is the model's reading (DESIGN CHOICE, log entry 18). -/
def readIndependent (h k : HostCmd) : Prop :=
  (∀ t ∈ writesOf h, t ∉ readsOf k) ∧ ∀ t ∈ writesOf k, t ∉ readsOf h

/-- Two commands with no data dependence between them (R108). That two commands which sample into the same temporary,
neither reading it, count as dependent is the model's reading: R40 and R108 do not say (DESIGN CHOICE, log entry 18). -/
def independent (h k : HostCmd) : Prop := readIndependent h k ∧ ∀ t ∈ writesOf h, t ∉ writesOf k

/-- A command each of whose sources is a number (none is a temporary), with operand values that fit the port: every form
of R57 given numbers, and a reserved code given numbers. With no temporary to read, an operand has its value over the
empty list of temporaries. -/
def literal (c : Config) (h : HostCmd) : Prop :=
  readsOf h = [] ∧ ∃ a b : Nat, operandValue [] h.a = .ok a ∧ operandValue [] h.b = .ok b ∧
    a < 2 ^ c.semw ∧ b < 2 ^ c.semw

/-- The command `h`, presented next, is answered with `ill = 0`, and each listed temporary then holds the value beside
it. -/
def yields (s : State) (h : HostCmd) (values : List (Nat × Nat)) : Prop :=
  ∃ v : State, step { s with pending := h :: s.pending } = .next v ∧ v.rsp.ill = false ∧
    ∀ p ∈ values, readTemp v.temps p.1 = some p.2

/-- R54: the five op-select codes that select no operation. -/
def isReserved (op : Nat) : Bool := op == 2 || op == 3 || op == 7 || op == 11 || op == 15

/-- The fallback look-up table of R62 on numbers: the code the decoded variant has. -/
def lut (x : Nat) : Nat := if x ≤ 5 ∨ x = 7 then x else 7

/-- R48, R50 and R51 as arithmetic on numbers: the field `r0` of the response. -/
def tableR0 (op a b : Nat) : Nat :=
  match op with
  | 0 => lut a
  | 1 => lut (a % 8)
  | 4 => if a = 0 then 0 else 1
  | 5 => a % 2
  | 6 => if a % 2 = 0 then 16 else 2
  | 8 => a % 16
  | 9 => a % 16 + 16 * (b % 16)
  | 10 => if a ≤ 15 then a else 15
  | 12 => a % 16
  | 13 => a % 16 + 16 * lut (b % 8) + 128 * (b / 8 % 2)
  | 14 => if a ≤ 15 then a else 15
  | _ => 0

/-- R48, R50 and R51 as arithmetic on numbers: the field `r1` of the response. -/
def tableR1 (op a b : Nat) : Nat :=
  match op with
  | 8 => a / 16 % 16
  | 10 => b
  | 12 => lut (a / 16 % 8) + 8 * (a / 128 % 2)
  | 14 => lut (b % 8) + 8 * (b / 8 % 2)
  | _ => 0

/-- R47 as arithmetic on numbers: the response to the command with these fields. -/
def tableRsp (op a b : Nat) : Rsp := ⟨tableR0 op a b, tableR1 op a b, isReserved op⟩

/-- The state after a response: the port `rsp` and the model's mark, nothing else. -/
def responded (s : State) (rsp : Rsp) : State := { s with rsp := rsp, faultMark := s.faultMark || rsp.ill }

end Sys2Proof.Safety
end

