-- ==== Sys2Proof/Certificates/Slice0/Obligations.lean ====
section
/-! DEFINITION. The statements for the provers. Each docstring names the rule of spec/ it formalises, or says that it rests
on a choice of the model and names the log entry. -/

open Sys2Proof Sys2Proof.Machine Sys2Proof.Safety

/-! ## Words -/

/-- R45: the number of a command word in terms of its fields, and the fields back from the number, for every `SEMW`. -/
def Obligations.CommandWordFieldsRoundTrip : Prop :=
  ∀ c : Config,
    (∀ cmd : Cmd, cmdWord c cmd = cmd.op.toNat + cmd.a * 16 + cmd.b * 2 ^ (c.semw + 4)) ∧
    (∀ cmd : Cmd, cmd.a < 2 ^ c.semw → cmd.b < 2 ^ c.semw →
      cmdWord c cmd < 2 ^ (2 * c.semw + 4) ∧ cmdOfWord c (cmdWord c cmd) = cmd) ∧
    ∀ w : Nat, w < 2 ^ (2 * c.semw + 4) →
      (cmdOfWord c w).a < 2 ^ c.semw ∧ (cmdOfWord c w).b < 2 ^ c.semw ∧ cmdWord c (cmdOfWord c w) = w

/-- R46: the number of a response word in terms of its fields, and the fields back from the number, for every `SEMW`. -/
def Obligations.ResponseWordFieldsRoundTrip : Prop :=
  ∀ c : Config,
    (∀ r : Rsp, rspWord c r = r.r0 + r.r1 * 2 ^ c.semw + (if r.ill then 1 else 0) * 2 ^ (2 * c.semw)) ∧
    (∀ r : Rsp, r.r0 < 2 ^ c.semw → r.r1 < 2 ^ c.semw →
      rspWord c r < 2 ^ (2 * c.semw + 1) ∧ rspOfWord c (rspWord c r) = r) ∧
    ∀ w : Nat, w < 2 ^ (2 * c.semw + 1) →
      (rspOfWord c w).r0 < 2 ^ c.semw ∧ (rspOfWord c w).r1 < 2 ^ c.semw ∧ rspWord c (rspOfWord c w) = w

/-- Decode and encode agree on every well-formed instruction, every operand at every value its field admits, for every
`SEMW` (R48, R50). -/
def Obligations.DecodeOfEncodeIsTheInstruction : Prop :=
  ∀ (c : Config) (i : Instr), i.wf c = true → decode c (encode c i) = .ok i

/-- R61, which the spec marks as derived from R47, R52 and R54: every command word is exactly one well-formed instruction,
and every instruction gives a response. That a number that is no command word is rejected by name is the model's choice
(log entry 8). -/
def Obligations.EveryCommandWordDecodesAndAnswers : Prop :=
  ∀ (c : Config) (w : Nat),
    (w < 2 ^ (2 * c.semw + 4) →
      ∃ i : Instr, decode c w = .ok i ∧ i.wf c = true ∧ ∀ s : State, ∃ t : State, exec i s = .next t) ∧
    (2 ^ (2 * c.semw + 4) ≤ w → decode c w = .error .wordTooWide)

/-- R52, first half, with R50: operand bits that an operation does not read have no effect on what is decoded. -/
def Obligations.UnreadOperandBitsAreIgnored : Prop :=
  ∀ a b a' b' : Nat,
    instrOfCmd ⟨0x0#4, a, b⟩ = instrOfCmd ⟨0x0#4, a, b'⟩ ∧
    (a % 8 = a' % 8 → instrOfCmd ⟨0x1#4, a, b⟩ = instrOfCmd ⟨0x1#4, a', b'⟩) ∧
    instrOfCmd ⟨0x4#4, a, b⟩ = instrOfCmd ⟨0x4#4, a, b'⟩ ∧
    (a % 2 = a' % 2 → instrOfCmd ⟨0x5#4, a, b⟩ = instrOfCmd ⟨0x5#4, a', b'⟩) ∧
    (a % 2 = a' % 2 → instrOfCmd ⟨0x6#4, a, b⟩ = instrOfCmd ⟨0x6#4, a', b'⟩) ∧
    (a % 256 = a' % 256 → instrOfCmd ⟨0x8#4, a, b⟩ = instrOfCmd ⟨0x8#4, a', b'⟩) ∧
    (a % 16 = a' % 16 → instrOfCmd ⟨0x9#4, a, b⟩ = instrOfCmd ⟨0x9#4, a', b⟩) ∧
    (a % 256 = a' % 256 → instrOfCmd ⟨0xC#4, a, b⟩ = instrOfCmd ⟨0xC#4, a', b'⟩) ∧
    (a % 16 = a' % 16 → b % 16 = b' % 16 → instrOfCmd ⟨0xD#4, a, b⟩ = instrOfCmd ⟨0xD#4, a', b'⟩) ∧
    (b % 16 = b' % 16 → instrOfCmd ⟨0xE#4, a, b⟩ = instrOfCmd ⟨0xE#4, a, b'⟩) ∧
    instrOfCmd ⟨0x2#4, a, b⟩ = instrOfCmd ⟨0x2#4, a', b'⟩ ∧
    instrOfCmd ⟨0x3#4, a, b⟩ = instrOfCmd ⟨0x3#4, a', b'⟩ ∧
    instrOfCmd ⟨0x7#4, a, b⟩ = instrOfCmd ⟨0x7#4, a', b'⟩ ∧
    instrOfCmd ⟨0xB#4, a, b⟩ = instrOfCmd ⟨0xB#4, a', b'⟩ ∧
    instrOfCmd ⟨0xF#4, a, b⟩ = instrOfCmd ⟨0xF#4, a', b'⟩

/-- R52, second half, with R51: result bits that an operation does not write are 0. -/
def Obligations.UnwrittenResultBitsAreZero : Prop :=
  ∀ (cmd : Cmd) (r : Rsp), answers cmd r →
    (cmd.op = 0x0#4 ∨ cmd.op = 0x1#4 → r.r0 < 8 ∧ r.r1 = 0) ∧
    (cmd.op = 0x4#4 ∨ cmd.op = 0x5#4 → r.r0 < 2 ∧ r.r1 = 0) ∧
    (cmd.op = 0x6#4 → r.r0 < 32 ∧ r.r1 = 0) ∧
    (cmd.op = 0x8#4 → r.r0 < 16 ∧ r.r1 < 16) ∧
    (cmd.op = 0xA#4 → r.r0 < 16) ∧
    (cmd.op = 0x9#4 ∨ cmd.op = 0xD#4 → r.r0 < 256 ∧ r.r1 = 0) ∧
    (cmd.op = 0xC#4 ∨ cmd.op = 0xE#4 → r.r0 < 16 ∧ r.r1 < 16)

/-- R54 (the spec's decision D9): exactly the words whose op-select code is reserved are illegal, with the illegal-command response, and they are
`5 * 2^(2*SEMW)` of the `2^(2*SEMW+4)` command words. -/
def Obligations.ExactlyTheReservedCodesAreIllegal : Prop :=
  ∀ c : Config,
    (∀ w : Nat, w < 2 ^ (2 * c.semw + 4) → ∃ r : Rsp, answers (cmdOfWord c w) r ∧
      (r.ill = true ↔ w % 16 ∈ [0x2, 0x3, 0x7, 0xB, 0xF]) ∧ (r.ill = true → r = ⟨0, 0, true⟩)) ∧
    ((Finset.range (2 ^ (2 * c.semw + 4))).filter fun w => w % 16 ∈ [0x2, 0x3, 0x7, 0xB, 0xF]).card =
      5 * 2 ^ (2 * c.semw)

/-- The command words of worked examples of 40, 41 and 42 decode to the instructions they stand for, at `SEMW = 8`. -/
def Obligations.WorkedCommandWordsDecode : Prop :=
  decode Config.default 0x00060 = .ok (.scDec 6) ∧
  decode Config.default 0x00051 = .ok (.scEnc 5#3) ∧
  decode Config.default 0x00016 = .ok (.rcMul 1#1) ∧
  decode Config.default 0x0314A = .ok (.biCon 20 3) ∧
  decode Config.default 0x02039 = .ok (.biEnc 3#4 2) ∧
  decode Config.default 0x0085C = .ok (.bdfDec 0x85#8) ∧
  decode Config.default 0x0805D = .ok (.bdfEnc 5#4 0#3 1#1)

/-- R6 and R112: for operands that fit two widths, the instruction, and with it every field of the response, is the same
at both: only the positions in the two words depend on `SEMW`. -/
def Obligations.FieldValuesDoNotDependOnSemw : Prop :=
  ∀ (c d : Config) (cmd : Cmd), cmd.a < 2 ^ c.semw → cmd.b < 2 ^ c.semw → cmd.a < 2 ^ d.semw → cmd.b < 2 ^ d.semw →
    ∃ (i : Instr) (r : Rsp), decode c (cmdWord c cmd) = .ok i ∧ decode d (cmdWord d cmd) = .ok i ∧
      ∀ s : State, ∃ t : State, exec i s = .next t ∧ t.rsp = r

/-- The headline: R47 with R48, R50 and R51. For every `SEMW` and every command word, the decoded instruction puts on the
port `rsp` the response that the operation map, written once more as plain arithmetic on the word's fields
(`Safety.tableRsp`), gives it, and changes nothing else but the model's mark. -/
def Obligations.EveryCommandWordMatchesTheOperationMap : Prop :=
  ∀ (c : Config) (w : Nat), w < 2 ^ (2 * c.semw + 4) →
    ∃ i : Instr, decode c w = .ok i ∧
      ∀ s : State, exec i s =
        .next (responded s (tableRsp (w % 16) (w / 16 % 2 ^ c.semw) (w / 2 ^ (c.semw + 4))))

/-! ## The pure functions of files 40, 41 and 42 -/

/-- R62: the fallback look-up table, for every unsigned number. -/
def Obligations.StatusDecodeIsTheFallbackTable : Prop :=
  ∀ x : Nat,
    (x ∈ [0, 1, 2, 3, 4, 5, 7] → (scEncode (scDecode x)).toNat = x) ∧
    (x ∉ [0, 1, 2, 3, 4, 5, 7] → scDecode x = .invalid)

/-- R63: the encode table, its inverse law on variants, and exactly where encode after decode is the identity on
numbers. -/
def Obligations.StatusEncodeInvertsDecode : Prop :=
  (scEncode .reserved = 0#3 ∧ scEncode .new = 1#3 ∧ scEncode .good = 2#3 ∧ scEncode .ok = 3#3 ∧ scEncode .low = 4#3 ∧
    scEncode .critical = 5#3 ∧ scEncode .invalid = 7#3) ∧
  (∀ v : StatusCode, scEncode v ≠ 6#3 ∧ scDecode (scEncode v).toNat = v) ∧
  (∀ x : Nat, (scEncode (scDecode x)).toNat = x ↔ x ∈ [0, 1, 2, 3, 4, 5, 7]) ∧
  (scEncode (scDecode 6)).toNat = 7

/-- R66 and R67: the resolution validator, its code, its multiplier, and where encode after decode is the identity. -/
def Obligations.ResolutionFunctions : Prop :=
  (∀ x : Nat, rcDecode x = if x = 0 then .sixteenSecond else .twoSecond) ∧
  (rcEncode .sixteenSecond = 0#1 ∧ rcEncode .twoSecond = 1#1) ∧
  (rcMultiplier .sixteenSecond = 16 ∧ rcMultiplier .twoSecond = 2) ∧
  (∀ v : ResolutionCode, rcDecode (rcEncode v).toNat = v) ∧
  (∀ x : Nat, (rcEncode (rcDecode x)).toNat = x ↔ x = 0 ∨ x = 1) ∧
  ∀ x : Nat, 2 ≤ x → (rcEncode (rcDecode x)).toNat = 1

/-- Narrowing the unmasked OR to 8 bits equals masking `identifier` before the shift, for every `identifier`: an inference
that the spec marks as its own (R77, "[derived: from `00_scope.md` rule R10 and rule R76]"). -/
def Obligations.IdentifierNarrowingEqualsMasking : Prop :=
  ∀ (count : Nibble) (identifier : Nat),
    (biEncode ⟨count, identifier⟩).toNat = count.toNat ||| ((identifier &&& 0x0F) <<< 4) ∧
    (biEncode ⟨count, identifier⟩).toNat = (count.toNat ||| (identifier <<< 4)) % 256

/-- The identifier round trip, where it holds, where it holds in AMP's form only, and where it fails: the last two are an
inference that the spec marks as its own (R78, "[derived: from rule R73, rule R75 and rule R76]"). -/
def Obligations.IdentifierRoundTrip : Prop :=
  ∀ count identifier : Nat,
    (count ≤ 15 → identifier ≤ 15 →
      biDecode (biEncode (biConstruct count identifier)) = biConstruct count identifier ∧
      (biConstruct count identifier).count.toNat = count ∧ (biConstruct count identifier).identifier = identifier) ∧
    (15 < identifier →
      (biDecode (biEncode (biConstruct count identifier))).identifier = identifier % 16 ∧
      (biDecode (biEncode (biConstruct count identifier))).identifier ≠ identifier) ∧
    (15 < count → identifier ≤ 15 →
      biDecode (biEncode (biConstruct count identifier)) = biConstruct count identifier ∧
      (biConstruct count identifier).count.toNat = 15)

/-- Decode is a bijection from the bytes onto the identifiers below 16, with encode its inverse: two inferences that the
spec marks as its own (R74, "[derived: from rule R72 and rule R73]"; R79, "[derived: from rule R73 and rule R76]"). -/
def Obligations.IdentifierDecodeIsABijection : Prop :=
  (∀ x : Byte, (biDecode x).identifier ≤ 15 ∧ biEncode (biDecode x) = x) ∧
  (∀ v : BatteryIdentifier, v.identifier ≤ 15 → ∃ x : Byte, biDecode x = v ∧ ∀ y : Byte, biDecode y = v → y = x) ∧
  ∀ v : BatteryIdentifier, biEncode (biDecode (biEncode v)) = biEncode v

/-- R85: the three terms of the descriptive byte do not overlap, so their OR is their sum, at most 255, and no narrowing
happens. -/
def Obligations.DescriptiveEncodeCannotOverflow : Prop :=
  ∀ v : BatteryDescriptiveField,
    bdfOr v = v.coarseVoltage.toNat + 16 * (scEncode v.status).toNat + 128 * (rcEncode v.resolution).toNat ∧
    bdfOr v ≤ 255 ∧ (bdfEncode v).toNat = bdfOr v

/-- R86: encode then decode is the identity. That this includes `Invalid` is an inference that the spec marks as its own
("[derived: from rule R81, rule R84 and `40_enum_validators.md` rule R63]"). -/
def Obligations.DescriptiveRoundTrip : Prop :=
  ∀ (coarseVoltage : Nat) (status : StatusCode) (resolution : ResolutionCode), coarseVoltage ≤ 15 →
    bdfDecode (bdfEncode (bdfConstruct coarseVoltage status resolution)) =
      ⟨BitVec.ofNat 4 coarseVoltage, status, resolution⟩

/-- Decode is onto the 224 values, and two bytes share a value exactly when they differ only between the status codes 6
and 7: an inference that the spec marks as its own (R88, "[derived: from rule R81 and rule R82]"). -/
def Obligations.DescriptiveDecodeIsOnto : Prop :=
  (∀ v : BatteryDescriptiveField, ∃ x : Byte, bdfDecode x = v) ∧
  (∀ x y : Byte, bdfDecode x = bdfDecode y ↔
    x.toNat % 16 = y.toNat % 16 ∧ x.toNat / 128 = y.toNat / 128 ∧
      lut (x.toNat / 16 % 8) = lut (y.toNat / 16 % 8)) ∧
  ((List.range 256).map fun n => bdfDecode (BitVec.ofNat 8 n)).dedup.length = 224

/-- R71: a name for every variant's tag, one-to-one, and none for the tag 6. No statement rests on a spelling (log entry
12). -/
def Obligations.NamesAreOneToOne : Prop :=
  (∀ v w : StatusCode, (statusTagName (scEncode v)).isSome = true ∧
    (statusTagName (scEncode v) = statusTagName (scEncode w) → v = w)) ∧
  statusTagName 6#3 = none ∧
  ∀ v w : ResolutionCode, (resolutionTagName (rcEncode v)).isSome = true ∧
    (resolutionTagName (rcEncode v) = resolutionTagName (rcEncode w) → v = w)

/-! ## The eleven operations and the illegal-command response -/

/-- R64 `SC.DEC`. -/
def Obligations.ScDecResult : Prop :=
  (∀ (c : Config) (a b : Nat), a < 2 ^ c.semw → b < 2 ^ c.semw →
    decode c (cmdWord c ⟨0x0#4, a, b⟩) = .ok (.scDec a)) ∧
  ∀ (raw : Nat) (s : State), exec (.scDec raw) s =
    .next { s with rsp := ⟨if raw ∈ [0, 1, 2, 3, 4, 5, 7] then raw else 7, 0, false⟩ }

/-- R65 `SC.ENC`. -/
def Obligations.ScEncResult : Prop :=
  (∀ (c : Config) (a b : Nat), a < 2 ^ c.semw → b < 2 ^ c.semw →
    decode c (cmdWord c ⟨0x1#4, a, b⟩) = .ok (.scEnc (BitVec.ofNat 3 a))) ∧
  ∀ (status : StatusTag) (s : State), exec (.scEnc status) s =
    .next { s with rsp := ⟨if status = 6#3 then 7 else status.toNat, 0, false⟩ }

/-- R68 `RC.DEC`: the test is on the whole operand. -/
def Obligations.RcDecResult : Prop :=
  (∀ (c : Config) (a b : Nat), a < 2 ^ c.semw → b < 2 ^ c.semw →
    decode c (cmdWord c ⟨0x4#4, a, b⟩) = .ok (.rcDec a)) ∧
  ∀ (raw : Nat) (s : State), exec (.rcDec raw) s =
    .next { s with rsp := ⟨if raw = 0 then 0 else 1, 0, false⟩ }

/-- R69 `RC.ENC`: only bit 0 of the operand is read. -/
def Obligations.RcEncResult : Prop :=
  (∀ (c : Config) (a b : Nat), a < 2 ^ c.semw → b < 2 ^ c.semw →
    decode c (cmdWord c ⟨0x5#4, a, b⟩) = .ok (.rcEnc (BitVec.ofNat 1 a))) ∧
  ∀ (resolution : ResolutionTag) (s : State), exec (.rcEnc resolution) s =
    .next { s with rsp := ⟨resolution.toNat, 0, false⟩ }

/-- R70 `RC.MUL`. -/
def Obligations.RcMulResult : Prop :=
  (∀ (c : Config) (a b : Nat), a < 2 ^ c.semw → b < 2 ^ c.semw →
    decode c (cmdWord c ⟨0x6#4, a, b⟩) = .ok (.rcMul (BitVec.ofNat 1 a))) ∧
  ∀ (resolution : ResolutionTag) (s : State), exec (.rcMul resolution) s =
    .next { s with rsp := ⟨if resolution = 0#1 then 16 else 2, 0, false⟩ }

/-- R73 `BI.DEC`. -/
def Obligations.BiDecResult : Prop :=
  (∀ (c : Config) (a b : Nat), a < 2 ^ c.semw → b < 2 ^ c.semw →
    decode c (cmdWord c ⟨0x8#4, a, b⟩) = .ok (.biDec (BitVec.ofNat 8 a))) ∧
  ∀ (raw : Byte) (s : State), exec (.biDec raw) s =
    .next { s with rsp := ⟨raw.toNat % 16, raw.toNat / 16, false⟩ }

/-- R75 `BI.CON`: `count` saturates, `identifier` is unchanged. -/
def Obligations.BiConResult : Prop :=
  (∀ (c : Config) (a b : Nat), a < 2 ^ c.semw → b < 2 ^ c.semw →
    decode c (cmdWord c ⟨0xA#4, a, b⟩) = .ok (.biCon a b)) ∧
  ∀ (count identifier : Nat) (s : State), exec (.biCon count identifier) s =
    .next { s with rsp := ⟨if count ≤ 15 then count else 15, identifier, false⟩ }

/-- R76 `BI.ENC`: the high bits of `identifier` are lost. -/
def Obligations.BiEncResult : Prop :=
  (∀ (c : Config) (a b : Nat), a < 2 ^ c.semw → b < 2 ^ c.semw →
    decode c (cmdWord c ⟨0x9#4, a, b⟩) = .ok (.biEnc (BitVec.ofNat 4 a) b)) ∧
  ∀ (count : Nibble) (identifier : Nat) (s : State), exec (.biEnc count identifier) s =
    .next { s with rsp := ⟨count.toNat + 16 * (identifier % 16), 0, false⟩ }

/-- R81 `BDF.DEC`: the status bits `110` become `111`, all else unchanged. -/
def Obligations.BdfDecResult : Prop :=
  (∀ (c : Config) (a b : Nat), a < 2 ^ c.semw → b < 2 ^ c.semw →
    decode c (cmdWord c ⟨0xC#4, a, b⟩) = .ok (.bdfDec (BitVec.ofNat 8 a))) ∧
  ∀ (raw : Byte) (s : State), exec (.bdfDec raw) s =
    .next { s with
      rsp := ⟨raw.toNat % 16,
        (if raw.toNat / 16 % 8 = 6 then 7 else raw.toNat / 16 % 8) + 8 * (raw.toNat / 128), false⟩ }

/-- R83 `BDF.CON`: `coarseVoltage` saturates, the tags are stored, `110` as `111`. -/
def Obligations.BdfConResult : Prop :=
  (∀ (c : Config) (a b : Nat), a < 2 ^ c.semw → b < 2 ^ c.semw →
    decode c (cmdWord c ⟨0xE#4, a, b⟩) = .ok (.bdfCon a (BitVec.ofNat 3 b) (BitVec.ofNat 1 (b / 8)))) ∧
  ∀ (coarseVoltage : Nat) (status : StatusTag) (resolution : ResolutionTag) (s : State),
    exec (.bdfCon coarseVoltage status resolution) s =
      .next { s with
        rsp := ⟨if coarseVoltage ≤ 15 then coarseVoltage else 15,
          (if status = 6#3 then 7 else status.toNat) + 8 * resolution.toNat, false⟩ }

/-- R84 `BDF.ENC`: the byte `(resolution, sc, coarseVoltage)` with `sc` the tag, `110` as `111`. -/
def Obligations.BdfEncResult : Prop :=
  (∀ (c : Config) (a b : Nat), a < 2 ^ c.semw → b < 2 ^ c.semw →
    decode c (cmdWord c ⟨0xD#4, a, b⟩) =
      .ok (.bdfEnc (BitVec.ofNat 4 a) (BitVec.ofNat 3 b) (BitVec.ofNat 1 (b / 8)))) ∧
  ∀ (coarseVoltage : Nibble) (status : StatusTag) (resolution : ResolutionTag) (s : State),
    exec (.bdfEnc coarseVoltage status resolution) s =
      .next { s with
        rsp := ⟨coarseVoltage.toNat + 16 * (if status = 6#3 then 7 else status.toNat) + 128 * resolution.toNat,
          0, false⟩ }

/-- R89: each of the five reserved op-select codes, whatever its operands, gives the illegal-command response and
nothing else; the model's own mark is set (R31, log entry 6). -/
def Obligations.ReservedCodesGiveIll : Prop :=
  (∀ (c : Config) (a b : Nat), a < 2 ^ c.semw → b < 2 ^ c.semw →
    decode c (cmdWord c ⟨0x2#4, a, b⟩) = .ok .reserved2 ∧ decode c (cmdWord c ⟨0x3#4, a, b⟩) = .ok .reserved3 ∧
    decode c (cmdWord c ⟨0x7#4, a, b⟩) = .ok .reserved7 ∧ decode c (cmdWord c ⟨0xB#4, a, b⟩) = .ok .reservedB ∧
    decode c (cmdWord c ⟨0xF#4, a, b⟩) = .ok .reservedF) ∧
  ∀ s : State,
    exec .reserved2 s = .next { s with rsp := ⟨0, 0, true⟩, faultMark := true } ∧
    exec .reserved3 s = .next { s with rsp := ⟨0, 0, true⟩, faultMark := true } ∧
    exec .reserved7 s = .next { s with rsp := ⟨0, 0, true⟩, faultMark := true } ∧
    exec .reservedB s = .next { s with rsp := ⟨0, 0, true⟩, faultMark := true } ∧
    exec .reservedF s = .next { s with rsp := ⟨0, 0, true⟩, faultMark := true }

/-- R27 and R55: the tag `110` never leaves the engine, in no output field and no encoded byte, whatever the command. -/
def Obligations.StatusTagSixNeverLeaves : Prop :=
  ∀ (cmd : Cmd) (r : Rsp), answers cmd r →
    (cmd.op = 0x0#4 ∨ cmd.op = 0x1#4 → r.r0 ≠ 6) ∧
    (cmd.op = 0xC#4 ∨ cmd.op = 0xE#4 → r.r1 % 8 ≠ 6) ∧
    (cmd.op = 0xD#4 → r.r0 / 16 % 8 ≠ 6)

/-- R60 and R79, both of them inferences that the spec marks as its own: the response of `BI.DEC`, copied unchanged into the operands of `BI.ENC`, gives the byte back. -/
def Obligations.IdentifierByteReencodes : Prop :=
  ∀ a b : Nat, ∃ r : Rsp, answers ⟨0x8#4, a, b⟩ r ∧ answers ⟨0x9#4, r.r0, r.r1⟩ ⟨a % 256, 0, false⟩

/-- R87 through the chaining of R60, both of them inferences that the spec marks as its own: the response of `BDF.DEC`, copied unchanged into the operands of `BDF.ENC`, gives the
byte back but for the status bits `110`, which come back as `111`; there are exactly 32 such bytes. -/
def Obligations.DescriptiveByteReencodesButForSix : Prop :=
  (∀ a b : Nat, ∃ r : Rsp, answers ⟨0xC#4, a, b⟩ r ∧
    answers ⟨0xD#4, r.r0, r.r1⟩ ⟨if a / 16 % 8 = 6 then a % 256 ||| 0x10 else a % 256, 0, false⟩) ∧
  (∀ x : Nat, x / 16 % 8 = 6 → x % 256 ||| 0x10 ≠ x % 256) ∧
  ((List.range 256).filter fun x => x / 16 % 8 = 6) = (List.range 16).map (0x60 + ·) ++ (List.range 16).map (0xE0 + ·)

/-! ## Runs -/

/-- R30, R103 and R104: at the start of a run no temporary is written, the mark is clear and `rsp` is already
`Exec(cmd)`. The model's choices here: the host's sequence is a list of State, and it is empty (log entry 3); the wires of
`cmd` are zero (log entry 2); the `SEMW` of the reset state is the spec's default (log entry 1). -/
def Obligations.ResetState : Prop :=
  State.reset.pending = [] ∧ State.reset.temps = [] ∧ State.reset.faultMark = false ∧ State.reset.cfg.semw = 8 ∧
    answers State.reset.cmd State.reset.rsp

/-- The invariant holds of the reset state. It rests on the model's choices: the zero `cmd` of reset (log entry 2), the
canonical form of the temporaries (log entry 5) and the mark (log entry 6). -/
def Obligations.ResetSatisfiesTheInvariant : Prop := Inv State.reset

/-- From every state with the invariant, a step that answers gives a state with it: the ports carry words of their
widths, `rsp` is `Exec(cmd)` (R28), the temporaries are canonical (log entry 5), the mark records an `ill` (log entry
6). -/
def Obligations.StepKeepsTheInvariant : Prop :=
  ∀ s t : State, Inv s → step s = .next t → Inv t

/-- A step runs the instruction the decoder reads from the presented word: the host's operands are read, the word is
driven on `cmd` and taken off the sequence, `exec` runs the decoded instruction there, and the response is sampled. -/
def Obligations.StepRunsTheDecodedInstruction : Prop :=
  ∀ (s : State) (h : HostCmd) (rest : List HostCmd) (a b : Nat) (i : Instr),
    s.pending = h :: rest → operandValue s.temps h.a = .ok a → operandValue s.temps h.b = .ok b →
    a < 2 ^ s.cfg.semw → b < 2 ^ s.cfg.semw → decode s.cfg (cmdWord s.cfg ⟨h.op, a, b⟩) = .ok i →
    ∃ t : State, exec i { s with cmd := ⟨h.op, a, b⟩, pending := rest } = .next t ∧
      step s = .next { t with temps := sampleTemps t.cfg t.rsp t.temps h.dests }

/-- When a step answers and when it stops, in four exclusive cases. The two stops beside R31's fault are the model's
(log entries 4 and 8). -/
def Obligations.WhenAStepStops : Prop :=
  ∀ s : State,
    (s.pending = [] → step s = .refused .runEnded) ∧
    ∀ (h : HostCmd) (rest : List HostCmd), s.pending = h :: rest →
      (∀ f : Fault, operandValue s.temps h.a = .error f → step s = .fault f) ∧
      (∀ (a : Nat) (f : Fault), operandValue s.temps h.a = .ok a → operandValue s.temps h.b = .error f →
        step s = .fault f) ∧
      ∀ a b : Nat, operandValue s.temps h.a = .ok a → operandValue s.temps h.b = .ok b →
        if a < 2 ^ s.cfg.semw ∧ b < 2 ^ s.cfg.semw then ∃ t : State, step s = .next t
        else step s = .refused .notACommandWord

/-- R31: a command that reads a temporary nothing has written, where every other operand is readable, stops with the
fault that names it: no zero is supplied. -/
def Obligations.UnwrittenTemporaryFaults : Prop :=
  ∀ (s : State) (h : HostCmd) (rest : List HostCmd), s.pending = h :: rest →
    (∃ t : Nat, t ∈ readsOf h ∧ readTemp s.temps t = none) →
    ∃ t : Nat, t ∈ readsOf h ∧ readTemp s.temps t = none ∧ step s = .fault (.unwrittenTemporary t)

/-- The frame of a step: the build parameter is never written (R18), the host's sequence loses its first command, only
the command's own temporaries change, and the mark is sticky and records exactly an `ill` (R31, log entry 6). -/
def Obligations.StepFrame : Prop :=
  ∀ (s t : State) (h : HostCmd) (rest : List HostCmd), s.pending = h :: rest → step s = .next t →
    t.cfg = s.cfg ∧ t.pending = rest ∧ t.cmd.op = h.op ∧
      (∀ u : Nat, u ∉ writesOf h → readTemp t.temps u = readTemp s.temps u) ∧
      t.faultMark = (s.faultMark || t.rsp.ill)

/-- R31 and R57: each temporary a command names holds, after the step, the field of the response it samples, with the
fields of R46 and the tags of R51 written out. That the last naming of a temporary counts is the model's choice (log entry
7). -/
def Obligations.SampledTemporaryHoldsItsField : Prop :=
  ∀ (s t : State) (h : HostCmd) (rest : List HostCmd) (ds ds' : List (Nat × RspField)) (u : Nat) (field : RspField),
    s.pending = h :: rest → h.dests = ds ++ (u, field) :: ds' → u ∉ ds'.map Prod.fst → step s = .next t →
    (field = .r0 → readTemp t.temps u = some t.rsp.r0) ∧
    (field = .r1 → readTemp t.temps u = some t.rsp.r1) ∧
    (field = .r1Status → readTemp t.temps u = some (t.rsp.r1 % 8)) ∧
    (field = .r1Resolution → readTemp t.temps u = some (t.rsp.r1 / 8 % 2)) ∧
    (field = .ill → readTemp t.temps u = some (if t.rsp.ill then 1 else 0)) ∧
    (field = .whole → readTemp t.temps u =
      some (t.rsp.r0 + t.rsp.r1 * 2 ^ t.cfg.semw + (if t.rsp.ill then 1 else 0) * 2 ^ (2 * t.cfg.semw)))

/-- R12 and R40 (a): the response of a step depends on its own command alone: two states that agree on `SEMW`, on the
next command and on the values of its operands answer the same, whatever was presented before. -/
def Obligations.ResponseDependsOnItsOwnCommandAlone : Prop :=
  ∀ (s u t : State) (h : HostCmd) (rest rest' : List HostCmd),
    s.pending = h :: rest → u.pending = h :: rest' → s.cfg = u.cfg →
    operandValue s.temps h.a = operandValue u.temps h.a → operandValue s.temps h.b = operandValue u.temps h.b →
    step s = .next t → ∃ v : State, step u = .next v ∧ v.rsp = t.rsp ∧ v.cmd = t.cmd

/-- R40 and R108: two commands with no data dependence may be presented in either order, with the same temporaries, the
same mark (the model's, log entry 6) and the same rest of the sequence after both. Commands that sample into one temporary
count as dependent here, which is the model's reading (log entry 18); `ResponsesCommute` is without that. -/
def Obligations.IndependentCommandsCommute : Prop :=
  ∀ (s t : State) (h k : HostCmd) (rest : List HostCmd), independent h k →
    Host.Core.run Sys2Proof.core 2 { s with pending := h :: k :: rest } = .next t →
    ∃ u : State, Host.Core.run Sys2Proof.core 2 { s with pending := k :: h :: rest } = .next u ∧
      (∀ n : Nat, readTemp u.temps n = readTemp t.temps n) ∧ u.faultMark = t.faultMark ∧
      u.pending = t.pending ∧ u.cfg = t.cfg

/-- After an illegal command the next one is handled as if the illegal one had never been presented: same word, same
response, same temporaries, same rest: an inference that the spec marks as its own (R94, "[derived: from rule R89 and
`00_scope.md` rule R12]"). Only the model's own mark remembers (R31, log entry 6). The illegal command here samples
nothing; `SampledIllegalCommandHasNoAfterEffect` is of one that samples. -/
def Obligations.IllegalCommandHasNoAfterEffect : Prop :=
  ∀ (s t : State) (h k : HostCmd) (rest : List HostCmd),
    isReserved h.op.toNat = true → h.dests = [] →
    Host.Core.run Sys2Proof.core 2 { s with pending := h :: k :: rest } = .next t →
    ∃ u : State, step { s with pending := k :: rest } = .next u ∧
      t = { u with faultMark := true }

/-- R11 and R61, the latter an inference that the spec marks as its own ("[derived: from rule R47, rule R52 and rule
R54]"): a sequence of commands whose operands are made of numbers alone, as in every form of R57, and fit the port runs to
its end in as many steps as it has commands, whatever its op-select codes, and is final exactly when the mark was clear and
no code was reserved. The mark and what final means are the model's reading (log entries 6 and 16). -/
def Obligations.LiteralProgramsRunToTheirEnd : Prop :=
  ∀ s : State, (∀ h ∈ s.pending, literal s.cfg h) →
    ∃ t : State, Host.Core.run Sys2Proof.core s.pending.length s = .next t ∧ t.pending = [] ∧
      (final t = true ↔ s.faultMark = false ∧ ∀ h ∈ s.pending, isReserved h.op.toNat = false)

/-- R31: a program that reads only temporaries written before never stops with a fault, in any number of steps, from any
state whose temporaries it counts as written (the fault's form is log entry 5). `StepKeepsWellFormedPrograms` is its step
lemma. -/
def Obligations.WellFormedProgramsNeverFault : Prop :=
  ∀ (n : Nat) (s : State) (f : Fault), programWf (s.temps.map Prod.fst) s.pending = true →
    Host.Core.run Sys2Proof.core n s ≠ .fault f

/-- R57, the operand half: the fields each one-line form writes, its operands given as numbers or read from temporaries,
`x` and `y` with values that fit the port and `st` and `re` with the values of a status and a resolution tag. That an
operand goes into its field as it is, not masked to the bits the operation reads, is the model's reading of program P3 (log
entry 10). -/
def Obligations.FormsWriteTheirFields : Prop :=
  ∀ (s : State) (t u r : Nat) (x y st re : Source) (a b status resolution : Nat),
    sourceValue s.temps x = .ok a → sourceValue s.temps y = .ok b →
    sourceValue s.temps st = .ok status → sourceValue s.temps re = .ok resolution →
    a < 2 ^ s.cfg.semw → b < 2 ^ s.cfg.semw → status < 8 → resolution < 2 →
    present (formScDec t x) s = .next (presentWord 0x0#4 a 0 s) ∧
    present (formScEnc t x) s = .next (presentWord 0x1#4 a 0 s) ∧
    present (formRcDec t x) s = .next (presentWord 0x4#4 a 0 s) ∧
    present (formRcEnc t x) s = .next (presentWord 0x5#4 a 0 s) ∧
    present (formRcMul t x) s = .next (presentWord 0x6#4 a 0 s) ∧
    present (formBiDec t u x) s = .next (presentWord 0x8#4 a 0 s) ∧
    present (formBiEnc t x y) s = .next (presentWord 0x9#4 a b s) ∧
    present (formBiCon t u x y) s = .next (presentWord 0xA#4 a b s) ∧
    present (formBdfDec t u r x) s = .next (presentWord 0xC#4 a 0 s) ∧
    present (formBdfEnc t x st re) s = .next (presentWord 0xD#4 a (status + 8 * resolution) s) ∧
    present (formBdfCon t u r x st re) s = .next (presentWord 0xE#4 a (status + 8 * resolution) s)

/-- A table row's word, placed as the host's next command, is the instruction the next step runs, in every state and at
every `SEMW` (log entry 11). -/
def Obligations.PlacedTableWordRunsNext : Prop :=
  ∀ (s : State) (nbits w : Nat), ∃ (i : Instr) (t v : State),
    decodeTableWord nbits w = some i ∧ step (s.withFetchWord nbits w) = .next t ∧ exec i s = .next v ∧
      t.rsp = v.rsp ∧ t.faultMark = v.faultMark ∧ t.pending = s.pending ∧ t.temps = s.temps ∧ t.cfg = s.cfg

/-- R57, the result half, and the operand half through it: each of the eleven forms, presented next in any state with
operands that are numbers or written temporaries, is answered, and each of its temporaries, which are distinct, then holds
the result that the form's row names, as the operation's rule (R64 to R84) gives it. Operands are placed unmasked (log
entry 10). -/
def Obligations.FormsSampleTheirResults : Prop :=
  ∀ (s : State) (t u r : Nat) (x y st re : Source) (a b status resolution : Nat), t ≠ u → t ≠ r → u ≠ r →
    sourceValue s.temps x = .ok a → sourceValue s.temps y = .ok b →
    sourceValue s.temps st = .ok status → sourceValue s.temps re = .ok resolution →
    a < 2 ^ s.cfg.semw → b < 2 ^ s.cfg.semw → status < 8 → resolution < 2 →
    yields s (formScDec t x) [(t, lut a)] ∧
    yields s (formScEnc t x) [(t, lut (a % 8))] ∧
    yields s (formRcDec t x) [(t, if a = 0 then 0 else 1)] ∧
    yields s (formRcEnc t x) [(t, a % 2)] ∧
    yields s (formRcMul t x) [(t, if a % 2 = 0 then 16 else 2)] ∧
    yields s (formBiDec t u x) [(t, a % 16), (u, a / 16 % 16)] ∧
    yields s (formBiEnc t x y) [(t, a % 16 + 16 * (b % 16))] ∧
    yields s (formBiCon t u x y) [(t, if a ≤ 15 then a else 15), (u, b)] ∧
    yields s (formBdfDec t u r x) [(t, a % 16), (u, lut (a / 16 % 8)), (r, a / 128 % 2)] ∧
    yields s (formBdfEnc t x st re) [(t, a % 16 + 16 * lut status + 128 * resolution)] ∧
    yields s (formBdfCon t u r x st re) [(t, if a ≤ 15 then a else 15), (u, lut status), (r, resolution)]

/-- R60 as programs P2 and P3 use it: both tags of a descriptive field in one temporary, sampled from `r1`, copied whole
into `b` of `BDF.ENC` (the same word as the form with three operands gives for these tags and a resolution of 0), and
shifted by the host into `a` of `RC.MUL`. R60 is an inference that the spec marks as its own ("[derived: from rule R50 and
rule R51]"), and how the host's operand is made is log entry 10. -/
def Obligations.PairedTagsChain : Prop :=
  ∀ (s : State) (t u : Nat) (x y st re : Source) (a b status resolution : Nat), t ≠ u →
    sourceValue s.temps x = .ok a → sourceValue s.temps y = .ok b →
    sourceValue s.temps st = .ok status → sourceValue s.temps re = .ok resolution →
    a < 2 ^ s.cfg.semw → b < 2 ^ s.cfg.semw → status < 8 → resolution < 2 →
    yields s (formBdfDecPair t u x) [(t, a % 16), (u, lut (a / 16 % 8) + 8 * (a / 128 % 2))] ∧
    yields s (formBdfConPair t u x st re) [(t, if a ≤ 15 then a else 15), (u, lut status + 8 * resolution)] ∧
    present (formBdfEncPair t x y) s = .next (presentWord 0xD#4 a b s) ∧
    present (formBdfEnc t x y (.lit 0)) s = .next (presentWord 0xD#4 a b s) ∧
    yields s (formBdfEncPair t x y) [(t, a % 16 + 16 * lut (b % 8) + 128 * (b / 8 % 2))] ∧
    present (formRcMulOfPair t y) s = .next (presentWord 0x6#4 (b / 8) 0 s) ∧
    yields s (formRcMulOfPair t y) [(t, if b / 8 % 2 = 0 then 16 else 2)]

/-- R94 (an inference that the spec marks as its own) for an illegal command that samples its response, as step 2 of
program P4 does (log entry 7): the next command, if it reads none of the temporaries sampled, is answered as if the illegal
one had never been presented, and every other temporary, and every one it samples itself, then reads the same. The mark is
the model's (log entry 6). -/
def Obligations.SampledIllegalCommandHasNoAfterEffect : Prop :=
  ∀ (s t : State) (h k : HostCmd) (rest : List HostCmd),
    isReserved h.op.toNat = true → (∀ n ∈ writesOf h, n ∉ readsOf k) →
    Host.Core.run Sys2Proof.core 2 { s with pending := h :: k :: rest } = .next t →
    ∃ u : State, step { s with pending := k :: rest } = .next u ∧
      t.cfg = u.cfg ∧ t.cmd = u.cmd ∧ t.rsp = u.rsp ∧ t.pending = u.pending ∧ t.faultMark = true ∧
      ∀ n : Nat, n ∉ writesOf h ∨ n ∈ writesOf k → readTemp t.temps n = readTemp u.temps n

/-- R31 as an invariant: that the pending commands read only temporaries that are written, or that an earlier one of them
writes, is kept by every step that answers, and a step from such a state is no fault (whose form is log entry 5). -/
def Obligations.StepKeepsWellFormedPrograms : Prop :=
  ∀ s : State, programWf (s.temps.map Prod.fst) s.pending = true →
    (∀ f : Fault, step s ≠ .fault f) ∧
    ∀ t : State, step s = .next t → programWf (t.temps.map Prod.fst) t.pending = true

/-- The reset state, with no command pending (the model's choice, log entry 3), has a well-formed program. -/
def Obligations.ResetProgramIsWellFormed : Prop :=
  programWf (State.reset.temps.map Prod.fst) State.reset.pending = true

/-- R40, "any two commands may be evaluated in either order ... with the same two responses": if neither of two commands
reads a temporary that the other samples into (the model's reading of the data dependence, log entry 18), each has the same
command word and the same response in either order, and every temporary that they do not both sample into, which they may,
reads the same after both. -/
def Obligations.ResponsesCommute : Prop :=
  ∀ (s s' t : State) (h k : HostCmd) (rest : List HostCmd), readIndependent h k →
    step { s with pending := h :: k :: rest } = .next s' → step s' = .next t →
    ∃ u' u : State, step { s with pending := k :: h :: rest } = .next u' ∧ step u' = .next u ∧
      u'.cmd = t.cmd ∧ u'.rsp = t.rsp ∧ u.cmd = s'.cmd ∧ u.rsp = s'.rsp ∧
      ∀ n : Nat, n ∉ writesOf h ∨ n ∉ writesOf k → readTemp u.temps n = readTemp t.temps n
end

