-- ==== Sys2Proof/Laws/State.lean ====
section
/-! SUPPORT. One lemma per field per update of the state, so that no later proof unfolds a record update. -/

namespace Sys2Proof.Machine

@[simp] theorem putRsp_cfg (r : Rsp) (s : State) : (putRsp r s).cfg = s.cfg := rfl
@[simp] theorem putRsp_cmd (r : Rsp) (s : State) : (putRsp r s).cmd = s.cmd := rfl
@[simp] theorem putRsp_rsp (r : Rsp) (s : State) : (putRsp r s).rsp = r := rfl
@[simp] theorem putRsp_pending (r : Rsp) (s : State) : (putRsp r s).pending = s.pending := rfl
@[simp] theorem putRsp_temps (r : Rsp) (s : State) : (putRsp r s).temps = s.temps := rfl
@[simp] theorem putRsp_faultMark (r : Rsp) (s : State) : (putRsp r s).faultMark = (s.faultMark || r.ill) := rfl

@[simp] theorem presentWord_cfg (op : OpSel) (a b : Nat) (s : State) : (presentWord op a b s).cfg = s.cfg := rfl
@[simp] theorem presentWord_cmd (op : OpSel) (a b : Nat) (s : State) : (presentWord op a b s).cmd = ⟨op, a, b⟩ := rfl
@[simp] theorem presentWord_rsp (op : OpSel) (a b : Nat) (s : State) : (presentWord op a b s).rsp = s.rsp := rfl
@[simp] theorem presentWord_pending (op : OpSel) (a b : Nat) (s : State) :
    (presentWord op a b s).pending = s.pending.tail := rfl
@[simp] theorem presentWord_temps (op : OpSel) (a b : Nat) (s : State) : (presentWord op a b s).temps = s.temps := rfl
@[simp] theorem presentWord_faultMark (op : OpSel) (a b : Nat) (s : State) :
    (presentWord op a b s).faultMark = s.faultMark := rfl

@[simp] theorem sample_cfg (d : List (Nat × RspField)) (s : State) : (sample d s).cfg = s.cfg := rfl
@[simp] theorem sample_cmd (d : List (Nat × RspField)) (s : State) : (sample d s).cmd = s.cmd := rfl
@[simp] theorem sample_rsp (d : List (Nat × RspField)) (s : State) : (sample d s).rsp = s.rsp := rfl
@[simp] theorem sample_pending (d : List (Nat × RspField)) (s : State) : (sample d s).pending = s.pending := rfl
@[simp] theorem sample_temps (d : List (Nat × RspField)) (s : State) :
    (sample d s).temps = sampleTemps s.cfg s.rsp s.temps d := rfl
@[simp] theorem sample_faultMark (d : List (Nat × RspField)) (s : State) : (sample d s).faultMark = s.faultMark := rfl

@[simp] theorem withFetchWord_cfg (s : State) (n w : Nat) : (s.withFetchWord n w).cfg = s.cfg := rfl
@[simp] theorem withFetchWord_cmd (s : State) (n w : Nat) : (s.withFetchWord n w).cmd = s.cmd := rfl
@[simp] theorem withFetchWord_rsp (s : State) (n w : Nat) : (s.withFetchWord n w).rsp = s.rsp := rfl
@[simp] theorem withFetchWord_pending (s : State) (n w : Nat) :
    (s.withFetchWord n w).pending = hostCmdOfWord n w :: s.pending := rfl
@[simp] theorem withFetchWord_temps (s : State) (n w : Nat) : (s.withFetchWord n w).temps = s.temps := rfl
@[simp] theorem withFetchWord_faultMark (s : State) (n w : Nat) : (s.withFetchWord n w).faultMark = s.faultMark := rfl

/-- The two spellings of a response on the state are one. -/
theorem responded_eq_putRsp (s : State) (r : Rsp) : Safety.responded s r = putRsp r s := rfl

end Sys2Proof.Machine
end

