-- ==== Sys2Proof/Laws/Temps.lean ====
section
/-! SUPPORT. The host's temporaries: reading after writing, and that every write keeps the canonical form. -/

namespace Sys2Proof.Machine

theorem readTemp_writeTemp_same (temps : List (Nat × Nat)) (t v : Nat) :
    readTemp (writeTemp temps t v) t = some v := by
  induction temps with
  | nil => simp [writeTemp, readTemp]
  | cons p rest ih =>
    obtain ⟨k, w⟩ := p
    unfold writeTemp
    split
    · simp [readTemp]
    · split
      · simp [readTemp]
      · simp only [readTemp]
        rw [if_neg (by omega)]
        exact ih

theorem readTemp_writeTemp_other (temps : List (Nat × Nat)) (t u v : Nat) (h : u ≠ t) :
    readTemp (writeTemp temps t v) u = readTemp temps u := by
  induction temps with
  | nil => simp [writeTemp, readTemp, h.symm]
  | cons p rest ih =>
    obtain ⟨k, w⟩ := p
    unfold writeTemp
    split
    · simp only [readTemp, if_neg h.symm]
    · split
      · next htk => subst htk; simp only [readTemp, if_neg h.symm]
      · simp only [readTemp, ih]

/-- The indices of the list after a write: those before it and the written one. -/
theorem mem_keys_writeTemp (temps : List (Nat × Nat)) (t v u : Nat) :
    u ∈ (writeTemp temps t v).map Prod.fst ↔ u = t ∨ u ∈ temps.map Prod.fst := by
  induction temps with
  | nil => simp [writeTemp]
  | cons p rest ih =>
    obtain ⟨k, w⟩ := p
    unfold writeTemp
    split
    · simp
    · split
      · next htk => subst htk; simp
      · simp only [List.map_cons, List.mem_cons, ih]
        exact ⟨fun h => by rcases h with h | h | h <;> simp [h], fun h => by rcases h with h | h | h <;> simp [h]⟩

theorem writeTemp_rising (temps : List (Nat × Nat)) (t v : Nat) (h : Safety.tempsRising temps) :
    Safety.tempsRising (writeTemp temps t v) := by
  induction temps with
  | nil => simp [writeTemp, Safety.tempsRising]
  | cons p rest ih =>
    obtain ⟨k, w⟩ := p
    simp only [Safety.tempsRising, List.map_cons, List.pairwise_cons] at h
    unfold writeTemp
    split
    · next htk =>
      simp only [Safety.tempsRising, List.map_cons, List.pairwise_cons, List.mem_cons]
      refine ⟨fun u hu => ?_, h⟩
      rcases hu with hu | hu
      · omega
      · have := h.1 u hu
        omega
    · split
      · next htk =>
        subst htk
        simpa only [Safety.tempsRising, List.map_cons, List.pairwise_cons] using h
      · simp only [Safety.tempsRising, List.map_cons, List.pairwise_cons]
        refine ⟨fun u hu => ?_, ih h.2⟩
        rcases (mem_keys_writeTemp rest t v u).mp hu with hu | hu
        · omega
        · exact h.1 u hu

theorem sampleTemps_rising (c : Config) (rsp : Rsp) (dests : List (Nat × RspField)) (temps : List (Nat × Nat))
    (h : Safety.tempsRising temps) : Safety.tempsRising (sampleTemps c rsp temps dests) := by
  induction dests generalizing temps with
  | nil => exact h
  | cons d rest ih => exact ih _ (writeTemp_rising temps d.1 _ h)

/-- Sampling leaves every temporary that is no destination alone. -/
theorem readTemp_sampleTemps_other (c : Config) (rsp : Rsp) (dests : List (Nat × RspField)) (temps : List (Nat × Nat))
    (u : Nat) (h : u ∉ dests.map Prod.fst) : readTemp (sampleTemps c rsp temps dests) u = readTemp temps u := by
  induction dests generalizing temps with
  | nil => rfl
  | cons d rest ih =>
    simp only [List.map_cons, List.mem_cons, not_or] at h
    exact (ih _ h.2).trans (readTemp_writeTemp_other temps d.1 u _ h.1)

/-- After sampling, a destination holds the field of its last naming. -/
theorem readTemp_sampleTemps_named (c : Config) (rsp : Rsp) (ds ds' : List (Nat × RspField)) (temps : List (Nat × Nat))
    (u : Nat) (field : RspField) (h : u ∉ ds'.map Prod.fst) :
    readTemp (sampleTemps c rsp temps (ds ++ (u, field) :: ds')) u = some (fieldValue c rsp field) := by
  induction ds generalizing temps with
  | nil =>
    exact (readTemp_sampleTemps_other c rsp ds' _ u h).trans (readTemp_writeTemp_same temps u _)
  | cons d rest ih => exact ih _

/-- What a destination holds after sampling does not depend on the temporaries before. -/
theorem readTemp_sampleTemps_dest (c : Config) (rsp : Rsp) (dests : List (Nat × RspField)) (temps temps' : List (Nat × Nat))
    (u : Nat) (h : u ∈ dests.map Prod.fst) :
    readTemp (sampleTemps c rsp temps dests) u = readTemp (sampleTemps c rsp temps' dests) u := by
  induction dests generalizing temps temps' with
  | nil => simp at h
  | cons d rest ih =>
    by_cases e : u ∈ rest.map Prod.fst
    · exact ih _ _ e
    · have hu : u = d.1 := by simpa [e] using h
      subst hu
      simp only [sampleTemps]
      rw [readTemp_sampleTemps_other c rsp rest _ _ e, readTemp_sampleTemps_other c rsp rest _ _ e,
        readTemp_writeTemp_same, readTemp_writeTemp_same]

/-- The indices of the list after sampling: those before it and the destinations. -/
theorem mem_keys_sampleTemps (c : Config) (rsp : Rsp) (dests : List (Nat × RspField)) (temps : List (Nat × Nat))
    (u : Nat) : u ∈ (sampleTemps c rsp temps dests).map Prod.fst ↔
      u ∈ dests.map Prod.fst ∨ u ∈ temps.map Prod.fst := by
  induction dests generalizing temps with
  | nil => simp [sampleTemps]
  | cons d rest ih =>
    simp only [sampleTemps, ih, mem_keys_writeTemp, List.map_cons, List.mem_cons]
    tauto

/-- The temporaries that can be read are the listed ones. -/
theorem readTemp_eq_none (temps : List (Nat × Nat)) (u : Nat) : readTemp temps u = none ↔ u ∉ temps.map Prod.fst := by
  induction temps with
  | nil => simp [readTemp]
  | cons p rest ih =>
    obtain ⟨k, v⟩ := p
    unfold readTemp
    split
    · next h => simp [h]
    · next h => simp only [ih, List.map_cons, List.mem_cons, not_or, Ne.symm h, not_false_eq_true, true_and]

/-- Why an operand is not readable: some source of it is a temporary nothing has written, and that is the fault. -/
theorem operandValue_error {temps : List (Nat × Nat)} {terms : List Term} {f : Fault}
    (h : operandValue temps terms = .error f) :
    ∃ t : Nat, f = .unwrittenTemporary t ∧ readTemp temps t = none ∧ ∃ x ∈ terms, x.source = .temp t := by
  induction terms with
  | nil => cases h
  | cons x rest ih =>
    unfold operandValue termValue sourceValue at h
    cases hx : x.source with
    | lit n =>
      cases hr : operandValue temps rest with
      | ok w => simp [hx, hr] at h
      | error g =>
        simp only [hx, hr] at h
        cases h
        obtain ⟨t, hf, hn, y, hy, hs⟩ := ih hr
        exact ⟨t, hf, hn, y, List.mem_cons_of_mem _ hy, hs⟩
    | temp t =>
      cases ht : readTemp temps t with
      | none =>
        simp only [hx, ht] at h
        cases h
        exact ⟨t, rfl, ht, x, List.mem_cons_self, hx⟩
      | some v =>
        cases hr : operandValue temps rest with
        | ok w => simp [hx, ht, hr] at h
        | error g =>
          simp only [hx, ht, hr] at h
          cases h
          obtain ⟨t', hf, hn, y, hy, hs⟩ := ih hr
          exact ⟨t', hf, hn, y, List.mem_cons_of_mem _ hy, hs⟩

/-- An operand's value depends on the temporaries it reads alone. -/
theorem operandValue_congr (temps temps' : List (Nat × Nat)) (terms : List Term)
    (h : ∀ x ∈ terms, ∀ t : Nat, x.source = .temp t → readTemp temps t = readTemp temps' t) :
    operandValue temps terms = operandValue temps' terms := by
  induction terms with
  | nil => rfl
  | cons x rest ih =>
    have e : termValue temps x = termValue temps' x := by
      unfold termValue sourceValue
      cases hx : x.source with
      | lit n => rfl
      | temp t => simp [h x List.mem_cons_self t hx]
    simp only [operandValue, e, ih fun y hy => h y (List.mem_cons_of_mem _ hy)]

end Sys2Proof.Machine
end

