-- ==== Sys2Proof/Laws/Ops.lean ====
section
/-! SUPPORT. For each shared operation one lemma that says everything it can do. -/

namespace Sys2Proof.Machine

theorem answer_eq (r0 r1 : Nat) (s : State) : answer r0 r1 s = .next (putRsp ⟨r0, r1, false⟩ s) := rfl

theorem raiseIll_eq (s : State) : raiseIll s = .next (putRsp ⟨0, 0, true⟩ s) := rfl

theorem answerIdentifier_eq (v : BatteryIdentifier) (s : State) :
    answerIdentifier v s = .next (putRsp ⟨v.count.toNat, v.identifier, false⟩ s) := rfl

theorem answerDescriptive_eq (v : BatteryDescriptiveField) (s : State) :
    answerDescriptive v s =
      .next (putRsp ⟨v.coarseVoltage.toNat, tagPair (scEncode v.status) (rcEncode v.resolution), false⟩ s) := rfl

/-- Everything an instruction can do: it puts one response, the same in every state, on the port `rsp`. -/
theorem exec_putsRsp (i : Instr) : ∃ r : Rsp, ∀ s : State, exec i s = .next (putRsp r s) := by
  cases i <;> exact ⟨_, fun _ => rfl⟩

/-- Everything presenting a command can do, if it answers a next state. -/
theorem present_next {h : HostCmd} {s t : State} (hp : present h s = .next t) :
    ∃ a b : Nat, operandValue s.temps h.a = .ok a ∧ operandValue s.temps h.b = .ok b ∧
      Cmd.wf s.cfg ⟨h.op, a, b⟩ = true ∧ t = presentWord h.op a b s := by
  unfold present at hp
  split at hp
  · cases hp
  · next a ha =>
    split at hp
    · cases hp
    · next b hb =>
      split at hp
      · next hw =>
        cases hp
        exact ⟨a, b, ha, hb, hw, rfl⟩
      · cases hp

theorem fetchInstr_ok {s : State} (h : cmdWord s.cfg s.cmd < 2 ^ cmdWidth s.cfg) :
    fetchInstr s = .ok (instrOfCmd (cmdOfWord s.cfg (cmdWord s.cfg s.cmd))) := by
  simp [fetchInstr, decode, h]

/-- Everything one command can do, if it answers a next state: present, one response, sample. -/
theorem runCommand_next {h : HostCmd} {s t : State} (hr : runCommand h s = .next t) :
    ∃ (a b : Nat) (i : Instr) (r : Rsp), operandValue s.temps h.a = .ok a ∧ operandValue s.temps h.b = .ok b ∧
      Cmd.wf s.cfg ⟨h.op, a, b⟩ = true ∧ decode s.cfg (cmdWord s.cfg ⟨h.op, a, b⟩) = .ok i ∧
      (∀ u : State, exec i u = .next (putRsp r u)) ∧ t = sample h.dests (putRsp r (presentWord h.op a b s)) := by
  unfold runCommand at hr
  split at hr
  · cases hr
  · cases hr
  · next s1 hp =>
    obtain ⟨a, b, ha, hb, hw, rfl⟩ := present_next hp
    unfold engineStep at hr
    cases hd : fetchInstr (presentWord h.op a b s) with
    | error e => rw [hd] at hr; cases hr
    | ok i =>
      obtain ⟨r, hx⟩ := exec_putsRsp i
      rw [hd] at hr
      simp only [hx] at hr
      cases hr
      exact ⟨a, b, i, r, ha, hb, hw, hd, hx, rfl⟩

/-- Everything a step can do, if it answers a next state: it runs the first command of the host's sequence. -/
theorem step_next {s t : State} (hs : step s = .next t) :
    ∃ (h : HostCmd) (rest : List HostCmd), s.pending = h :: rest ∧ runCommand h s = .next t := by
  unfold step at hs
  split at hs
  · cases hs
  · next h rest hp => exact ⟨h, rest, hp, hs⟩

end Sys2Proof.Machine
end

