-- ==== Sys2Proof/Laws/PerInstr.lean ====
section
/-! SUPPORT. Families of facts about every instruction, one lemma a constructor. `FitsPort`: the command fields written
for a well-formed instruction fit the `SEMW`-bit ports, so that its encoding is a command word (R45, R61). -/

namespace Sys2Proof.Laws

/-- A number below 256 fits every `SEMW`-bit field, since `SEMW >= 8` (R6). -/
theorem fits_of_lt_256 (c : Config) {v : Nat} (h : v < 256) : c.fits v = true := by
  have h8 : 2 ^ 8 ≤ 2 ^ c.semw := Nat.pow_le_pow_right (by decide) (by simp [Config.semw])
  simp only [Config.fits, decide_eq_true_eq]
  omega

theorem tagPair_lt (status : StatusTag) (resolution : ResolutionTag) : tagPair status resolution < 16 := by
  revert status resolution
  decide

/-- The fields written for a well-formed instruction fit the ports. -/
def FitsPort.Statement (i : Instr) : Prop := ∀ c : Config, i.wf c = true → (cmdOfInstr i).wf c = true

theorem FitsPort.scDec (raw : Nat) : FitsPort.Statement (.scDec raw) := fun c h => by
  simpa [Cmd.wf, cmdOfInstr, Instr.wf, fits_of_lt_256] using h

theorem FitsPort.scEnc (status : StatusTag) : FitsPort.Statement (.scEnc status) := fun c _ => by
  simp [Cmd.wf, cmdOfInstr, fits_of_lt_256, show status.toNat < 256 by omega]

theorem FitsPort.reserved2 : FitsPort.Statement .reserved2 := fun c _ => by
  simp [Cmd.wf, cmdOfInstr, fits_of_lt_256]

theorem FitsPort.reserved3 : FitsPort.Statement .reserved3 := fun c _ => by
  simp [Cmd.wf, cmdOfInstr, fits_of_lt_256]

theorem FitsPort.rcDec (raw : Nat) : FitsPort.Statement (.rcDec raw) := fun c h => by
  simpa [Cmd.wf, cmdOfInstr, Instr.wf, fits_of_lt_256] using h

theorem FitsPort.rcEnc (resolution : ResolutionTag) : FitsPort.Statement (.rcEnc resolution) := fun c _ => by
  simp [Cmd.wf, cmdOfInstr, fits_of_lt_256, show resolution.toNat < 256 by omega]

theorem FitsPort.rcMul (resolution : ResolutionTag) : FitsPort.Statement (.rcMul resolution) := fun c _ => by
  simp [Cmd.wf, cmdOfInstr, fits_of_lt_256, show resolution.toNat < 256 by omega]

theorem FitsPort.reserved7 : FitsPort.Statement .reserved7 := fun c _ => by
  simp [Cmd.wf, cmdOfInstr, fits_of_lt_256]

theorem FitsPort.biDec (raw : Byte) : FitsPort.Statement (.biDec raw) := fun c _ => by
  simp [Cmd.wf, cmdOfInstr, fits_of_lt_256, raw.isLt]

theorem FitsPort.biEnc (count : Nibble) (identifier : Nat) : FitsPort.Statement (.biEnc count identifier) :=
  fun c h => by
    simpa [Cmd.wf, cmdOfInstr, Instr.wf, fits_of_lt_256, show count.toNat < 256 by omega] using h

theorem FitsPort.biCon (count identifier : Nat) : FitsPort.Statement (.biCon count identifier) := fun c h => by
  simpa [Cmd.wf, cmdOfInstr, Instr.wf] using h

theorem FitsPort.reservedB : FitsPort.Statement .reservedB := fun c _ => by
  simp [Cmd.wf, cmdOfInstr, fits_of_lt_256]

theorem FitsPort.bdfDec (raw : Byte) : FitsPort.Statement (.bdfDec raw) := fun c _ => by
  simp [Cmd.wf, cmdOfInstr, fits_of_lt_256, raw.isLt]

theorem FitsPort.bdfEnc (coarseVoltage : Nibble) (status : StatusTag) (resolution : ResolutionTag) :
    FitsPort.Statement (.bdfEnc coarseVoltage status resolution) := fun c _ => by
  have := tagPair_lt status resolution
  simp [Cmd.wf, cmdOfInstr, fits_of_lt_256, show coarseVoltage.toNat < 256 by omega,
    show tagPair status resolution < 256 by omega]

theorem FitsPort.bdfCon (coarseVoltage : Nat) (status : StatusTag) (resolution : ResolutionTag) :
    FitsPort.Statement (.bdfCon coarseVoltage status resolution) := fun c h => by
  have := tagPair_lt status resolution
  simpa [Cmd.wf, cmdOfInstr, Instr.wf, fits_of_lt_256, show tagPair status resolution < 256 by omega] using h

theorem FitsPort.reservedF : FitsPort.Statement .reservedF := fun c _ => by
  simp [Cmd.wf, cmdOfInstr, fits_of_lt_256]

end Sys2Proof.Laws
end

