-- ==== Sys2Proof/Laws/Decode.lean ====
section
/-! SUPPORT. One lemma per op-select code: what the decoder makes of a command's fields (R48, R50). -/

namespace Sys2Proof

@[simp] theorem instrOfCmd_op0 (a b : Nat) : instrOfCmd ⟨0x0#4, a, b⟩ = .scDec a := rfl
@[simp] theorem instrOfCmd_op1 (a b : Nat) : instrOfCmd ⟨0x1#4, a, b⟩ = .scEnc (statusField a) := rfl
@[simp] theorem instrOfCmd_op2 (a b : Nat) : instrOfCmd ⟨0x2#4, a, b⟩ = .reserved2 := rfl
@[simp] theorem instrOfCmd_op3 (a b : Nat) : instrOfCmd ⟨0x3#4, a, b⟩ = .reserved3 := rfl
@[simp] theorem instrOfCmd_op4 (a b : Nat) : instrOfCmd ⟨0x4#4, a, b⟩ = .rcDec a := rfl
@[simp] theorem instrOfCmd_op5 (a b : Nat) : instrOfCmd ⟨0x5#4, a, b⟩ = .rcEnc (resolutionField a) := rfl
@[simp] theorem instrOfCmd_op6 (a b : Nat) : instrOfCmd ⟨0x6#4, a, b⟩ = .rcMul (resolutionField a) := rfl
@[simp] theorem instrOfCmd_op7 (a b : Nat) : instrOfCmd ⟨0x7#4, a, b⟩ = .reserved7 := rfl
@[simp] theorem instrOfCmd_op8 (a b : Nat) : instrOfCmd ⟨0x8#4, a, b⟩ = .biDec (rawByte a) := rfl
@[simp] theorem instrOfCmd_op9 (a b : Nat) : instrOfCmd ⟨0x9#4, a, b⟩ = .biEnc (nibbleField a) b := rfl
@[simp] theorem instrOfCmd_opA (a b : Nat) : instrOfCmd ⟨0xA#4, a, b⟩ = .biCon a b := rfl
@[simp] theorem instrOfCmd_opB (a b : Nat) : instrOfCmd ⟨0xB#4, a, b⟩ = .reservedB := rfl
@[simp] theorem instrOfCmd_opC (a b : Nat) : instrOfCmd ⟨0xC#4, a, b⟩ = .bdfDec (rawByte a) := rfl
@[simp] theorem instrOfCmd_opD (a b : Nat) :
    instrOfCmd ⟨0xD#4, a, b⟩ = .bdfEnc (nibbleField a) (statusField b) (resolutionField3 b) := rfl
@[simp] theorem instrOfCmd_opE (a b : Nat) :
    instrOfCmd ⟨0xE#4, a, b⟩ = .bdfCon a (statusField b) (resolutionField3 b) := rfl
@[simp] theorem instrOfCmd_opF (a b : Nat) : instrOfCmd ⟨0xF#4, a, b⟩ = .reservedF := rfl

end Sys2Proof
end

