-- ==== Sys2Proof/Tests/Slice0.lean ====
section
/-! SUPPORT. The model's own tests. Every expected word and response is a vector of spec/95_test_vectors.md or a worked
example of spec/40 to 42, named in the comment. The last part shows that the hypotheses of the statements can be met. -/

namespace Sys2Proof.Tests

open Sys2Proof.Machine Sys2Proof.Safety

/-- An engine of `SEMW = 16` (95_test_vectors.md section 2.6). -/
def wide : Config := ⟨8⟩

/-- A run that is given this sequence and these temporaries. -/
def start (c : Config) (temps : List (Nat × Nat)) (pending : List HostCmd) : State :=
  { State.reset with cfg := c, temps := temps, pending := pending }

/-- The response word after one step that presents a word at `SEMW = 8`. -/
def rspTo (w : Nat) : Option Nat :=
  match step (State.reset.withFetchWord 20 w) with
  | .next t => some (rspWord t.cfg t.rsp)
  | _ => none

/-- The response fields after one step that presents literal operands at `SEMW = 16`. -/
def wideRsp (op : OpSel) (a b : Nat) : Option Rsp :=
  match step (start wide [] [⟨op, whole (.lit a), whole (.lit b), []⟩]) with
  | .next t => some t.rsp
  | _ => none

/-- The temporaries after one step. -/
def tempsAfter (s : State) : Option (List (Nat × Nat)) :=
  match step s with
  | .next t => some t.temps
  | _ => none

/-- The fault a step stops with. -/
def faultOf (s : State) : Option Fault :=
  match step s with
  | .fault f => some f
  | _ => none

/-- The refusal a step stops with. -/
def refusalOf (s : State) : Option Refusal :=
  match step s with
  | .refused r => some r
  | _ => none

/-! ## Well-formedness: an ill-formed term for each check -/

theorem test_wf_scDec : Instr.wf Config.default (.scDec 256) = false := by decide
theorem test_wf_rcDec : Instr.wf Config.default (.rcDec 256) = false := by decide
theorem test_wf_biEnc : Instr.wf Config.default (.biEnc 5#4 256) = false := by decide
theorem test_wf_biCon_count : Instr.wf Config.default (.biCon 256 0) = false := by decide
theorem test_wf_biCon_identifier : Instr.wf Config.default (.biCon 0 256) = false := by decide
theorem test_wf_bdfCon : Instr.wf Config.default (.bdfCon 256 2#3 0#1) = false := by decide
theorem test_wf_wider_engine : Instr.wf wide (.biCon 256 300) = true := by decide
theorem test_wf_cmd_a : Cmd.wf Config.default ⟨0#4, 256, 0⟩ = false := by decide
theorem test_wf_cmd_b : Cmd.wf Config.default ⟨0#4, 0, 256⟩ = false := by decide
theorem test_wf_program_unwritten : programWf [] [formScEnc 1 (.temp 0)] = false := by decide
theorem test_wf_program_written : programWf [] [formScDec 0 (.lit 6), formScEnc 1 (.temp 0)] = true := by decide

/-! ## Decoding: a word of every row, written out from R45 and R48 -/

/-- `b = 0000 0000, a = 0000 0110, op = 0000` (V-SC-7). -/
theorem test_decode_scDec : decode Config.default 0b00000000000001100000 = .ok (.scDec 6) := by decide
/-- `b = 1111 1111, a = 1111 1011, op = 0001`: only `a[2:0] = 011` is read (V-SC-28). -/
theorem test_decode_scEnc : decode Config.default 0b11111111111110110001 = .ok (.scEnc 3#3) := by decide
/-- `op = 0010` (V-ILL-2). -/
theorem test_decode_reserved2 : decode Config.default 0xFFFF2 = .ok .reserved2 := by decide
/-- `op = 0011` (V-ILL-11). -/
theorem test_decode_reserved3 : decode Config.default 0x00233 = .ok .reserved3 := by decide
/-- `b = 0, a = 1000 0000, op = 0100` (V-RC-6). -/
theorem test_decode_rcDec : decode Config.default 0b00000000100000000100 = .ok (.rcDec 128) := by decide
/-- `b = 0, a = 0000 0010, op = 0101`: only `a[0]` is read (V-RC-12). -/
theorem test_decode_rcEnc : decode Config.default 0b00000000000000100101 = .ok (.rcEnc 0#1) := by decide
/-- `b = 1010 1010, a = 0000 0011, op = 0110` (V-RC-17). -/
theorem test_decode_rcMul : decode Config.default 0b10101010000000110110 = .ok (.rcMul 1#1) := by decide
/-- `op = 0111` (V-ILL-5). -/
theorem test_decode_reserved7 : decode Config.default 0x00007 = .ok .reserved7 := by decide
/-- `b = 0, a = 0010 0011, op = 1000` (V-BI-2). -/
theorem test_decode_biDec : decode Config.default 0b00000000001000111000 = .ok (.biDec 0x23#8) := by decide
/-- `b = 1111 0010, a = 1111 0011, op = 1001` (V-BI-28). -/
theorem test_decode_biEnc : decode Config.default 0b11110010111100111001 = .ok (.biEnc 3#4 0xF2) := by decide
/-- `b = 0000 0011, a = 0001 0100, op = 1010` (V-BI-14). -/
theorem test_decode_biCon : decode Config.default 0b00000011000101001010 = .ok (.biCon 20 3) := by decide
/-- `op = 1011` (V-ILL-8). -/
theorem test_decode_reservedB : decode Config.default 0xFFFFB = .ok .reservedB := by decide
/-- `b = 1111 1111, a = 0010 0101, op = 1100` (V-BDF-18). -/
theorem test_decode_bdfDec : decode Config.default 0b11111111001001011100 = .ok (.bdfDec 0x25#8) := by decide
/-- `b = 0000 1011, a = 0000 1010, op = 1101`: status `011`, resolution 1 (V-BDF-39). -/
theorem test_decode_bdfEnc : decode Config.default 0b00001011000010101101 = .ok (.bdfEnc 10#4 3#3 1#1) := by decide
/-- `b = 0000 1101, a = 1100 1000, op = 1110`: status `101`, resolution 1 (V-BDF-24). -/
theorem test_decode_bdfCon : decode Config.default 0b00001101110010001110 = .ok (.bdfCon 200 5#3 1#1) := by decide
/-- `op = 1111` (V-ILL-10). -/
theorem test_decode_reservedF : decode Config.default 0xFFFFF = .ok .reservedF := by decide
/-- R44: a number of 21 bits is no command word at `SEMW = 8`. -/
theorem test_decode_too_wide : decode Config.default 0x100000 = .error .wordTooWide := by decide
/-- V-W-1: the same fields at `SEMW = 16` are another word. -/
theorem test_decode_wide : decode wide 0x00030014A = .ok (.biCon 20 3) := by decide
/-- R57: the assembler writes 0 in unread bits (V-BDF-24, V-W-1). -/
theorem test_encode_bdfCon : encode Config.default (.bdfCon 200 5#3 1#1) = 0x0DC8E := by decide
theorem test_encode_wide : encode wide (.biCon 20 3) = 0x00030014A := by decide

/-! ## One step each: response words of 95_test_vectors.md -/

/-- V-SC-7, V-SC-11. -/
theorem test_scDec_six : rspTo 0x00060 = some 0x00007 := by decide
theorem test_scDec_above_seven : rspTo 0x000E0 = some 0x00007 := by decide
/-- V-SC-24, V-SC-28. -/
theorem test_scEnc_tag_six : rspTo 0x00061 = some 0x00007 := by decide
theorem test_scEnc_ignored_bits : rspTo 0xFFFB1 = some 0x00003 := by decide
/-- V-RC-6, V-RC-9. -/
theorem test_rcDec_whole_operand : rspTo 0x00804 = some 0x00001 := by decide
theorem test_rcDec_zero : rspTo 0xFF004 = some 0x00000 := by decide
/-- V-RC-12, V-RC-13. -/
theorem test_rcEnc_bit_zero : rspTo 0x00025 = some 0x00000 := by decide
theorem test_rcEnc_one : rspTo 0x00FF5 = some 0x00001 := by decide
/-- V-RC-16, V-RC-17. -/
theorem test_rcMul_sixteen : rspTo 0x00FE6 = some 0x00010 := by decide
theorem test_rcMul_two : rspTo 0xAA036 = some 0x00002 := by decide
/-- V-BI-3, V-BI-8. -/
theorem test_biDec_nibbles : rspTo 0x00328 = some 0x00302 := by decide
theorem test_biDec_high : rspTo 0x00A58 = some 0x00A05 := by decide
/-- V-BI-14, V-BI-15. -/
theorem test_biCon_saturates : rspTo 0x0314A = some 0x0030F := by decide
theorem test_biCon_identifier_as_given : rspTo 0xFFFFA = some 0x0FF0F := by decide
/-- V-BI-24, V-BI-28. -/
theorem test_biEnc_loses_high_bits : rspTo 0x1F059 = some 0x000F5 := by decide
theorem test_biEnc_ignored_bits : rspTo 0xF2F39 = some 0x00023 := by decide
/-- V-BDF-1, V-BDF-15. -/
theorem test_bdfDec_85 : rspTo 0x0085C = some 0x00805 := by decide
theorem test_bdfDec_six : rspTo 0x00E5C = some 0x00F05 := by decide
/-- V-BDF-24, V-BDF-28. -/
theorem test_bdfCon_saturates : rspTo 0x0DC8E = some 0x00D0F := by decide
theorem test_bdfCon_tag_six : rspTo 0x0E05E = some 0x00F05 := by decide
/-- V-BDF-39, V-BDF-35. -/
theorem test_bdfEnc_byte : rspTo 0x0B0AD = some 0x000BA := by decide
theorem test_bdfEnc_tag_six : rspTo 0x0E05D = some 0x000F5 := by decide
/-- V-ILL-2, V-ILL-11, V-ILL-6, V-ILL-8, V-ILL-10. -/
theorem test_reserved2 : rspTo 0xFFFF2 = some 0x10000 := by decide
theorem test_reserved3 : rspTo 0x00233 = some 0x10000 := by decide
theorem test_reserved7 : rspTo 0xFFFF7 = some 0x10000 := by decide
theorem test_reservedB : rspTo 0xFFFFB = some 0x10000 := by decide
theorem test_reservedF : rspTo 0xFFFFF = some 0x10000 := by decide

/-! ## `SEMW = 16` (V-W-4 to V-W-9) -/

theorem test_wide_biCon : wideRsp 0xA#4 0x0100 0x012C = some ⟨0x0F, 0x012C, false⟩ := by decide
theorem test_wide_biEnc : wideRsp 0x9#4 0x000F 0x012C = some ⟨0xCF, 0, false⟩ := by decide
theorem test_wide_scDec : wideRsp 0x0#4 0x0102 0 = some ⟨7, 0, false⟩ := by decide
theorem test_wide_rcDec : wideRsp 0x4#4 0x0100 0 = some ⟨1, 0, false⟩ := by decide
theorem test_wide_biDec : wideRsp 0x8#4 0x0123 0 = some ⟨3, 2, false⟩ := by decide
theorem test_wide_bdfCon : wideRsp 0xE#4 0x1000 0x000C = some ⟨0x0F, 0x0C, false⟩ := by decide

/-! ## The host's side of a step -/

/-- Program P3, step 4: the host shifts the resolution tag of `t3` into `a[0]`. -/
theorem test_host_shift : tempsAfter (start Config.default [(3, 0xA)] [formRcMulOfPair 5 (.temp 3)]) =
    some [(3, 0xA), (5, 2)] := by decide
/-- Program P2, step 1: both tags in one temporary. -/
theorem test_pair_decode : tempsAfter (start Config.default [] [formBdfDecPair 0 1 (.lit 0x6A)]) =
    some [(0, 10), (1, 7)] := by decide
/-- Program P2, step 2: the temporary with both tags copied into `b`. -/
theorem test_pair_encode : tempsAfter (start Config.default [(0, 10), (1, 7)] [formBdfEncPair 2 (.temp 0) (.temp 1)]) =
    some [(0, 10), (1, 7), (2, 0x7A)] := by decide
/-- V-BDF-26 with its two results kept as they are. -/
theorem test_pair_construct : tempsAfter (start Config.default [] [formBdfConPair 0 1 (.lit 5) (.lit 2) (.lit 1)]) =
    some [(0, 5), (1, 0xA)] := by decide
/-- V-BDF-13 through the form of R57: three temporaries from one response. -/
theorem test_form_bdfDec : tempsAfter (start Config.default [] [formBdfDec 2 1 0 (.lit 0xA7)]) =
    some [(0, 1), (1, 2), (2, 7)] := by decide
/-- V-BDF-39 through the form of R57, its tags in two operands. -/
theorem test_form_bdfEnc : tempsAfter (start Config.default [(0, 10)] [formBdfEnc 1 (.temp 0) (.lit 3) (.lit 1)]) =
    some [(0, 10), (1, 0xBA)] := by decide
/-- Program P4, step 2: the whole illegal response in a temporary. -/
theorem test_whole_response : tempsAfter (start Config.default [(0, 7)] [⟨0x3#4, whole (.lit 0x23), [], [(1, .whole)]⟩]) =
    some [(0, 7), (1, 0x10000)] := by decide
/-- Program P4, step 2, its three response fields (R46) in three temporaries. -/
theorem test_illegal_fields :
    tempsAfter (start Config.default [] [⟨0x3#4, whole (.lit 0x23), [], [(1, .r0), (2, .r1), (3, .ill)]⟩]) =
      some [(1, 0), (2, 0), (3, 1)] := by decide
/-- R31: reading a temporary nothing has written. -/
theorem test_unwritten_faults : faultOf (start Config.default [] [formScEnc 1 (.temp 9)]) =
    some (.unwrittenTemporary 9) := by decide
/-- Log entry 8: an operand of 256 is no operand at `SEMW = 8`. -/
theorem test_too_wide_refused : refusalOf (start Config.default [] [formBiCon 0 1 (.lit 256) (.lit 0)]) =
    some .notACommandWord := by decide
/-- Log entry 4: the end of the host's sequence. -/
theorem test_run_ended : refusalOf State.reset = some .runEnded := by decide
/-- A table row's word, as the host gives it. -/
theorem test_decodeTableWord : decodeTableWord 24 0x0314A = some (.biCon 20 3) := by decide

/-! ## Witnesses: the hypotheses of each statement that has any can be met together, named after the statement -/

theorem witness_CommandWordFieldsRoundTrip :
    ((⟨0xF#4, 255, 255⟩ : Cmd).a < 2 ^ Config.default.semw ∧ (⟨0xF#4, 255, 255⟩ : Cmd).b < 2 ^ Config.default.semw) ∧
    0xFFFFF < 2 ^ (2 * Config.default.semw + 4) := by decide

theorem witness_ResponseWordFieldsRoundTrip :
    ((⟨255, 255, true⟩ : Rsp).r0 < 2 ^ Config.default.semw ∧ (⟨255, 255, true⟩ : Rsp).r1 < 2 ^ Config.default.semw) ∧
    0x1FFFF < 2 ^ (2 * Config.default.semw + 1) := by decide

theorem witness_DecodeOfEncodeIsTheInstruction : Instr.wf Config.default (.biCon 255 255) = true := by decide

theorem witness_EveryCommandWordDecodesAndAnswers :
    0xFFFFF < 2 ^ (2 * Config.default.semw + 4) ∧ 2 ^ (2 * Config.default.semw + 4) ≤ 0x100000 := by decide

/-- A pair that agrees on the read bits and differs on the others, for each width of R50. -/
theorem witness_UnreadOperandBitsAreIgnored : 6 % 8 = 0xFE % 8 ∧ 1 % 2 = 0xFF % 2 ∧ 0x23 % 256 = 0x123 % 256 ∧
    (5 % 16 = 0x15 % 16 ∧ 2 % 16 = 0xF2 % 16) := by decide

/-- Every clause's op-select code, with all operand bits set. -/
theorem witness_UnwrittenResultBitsAreZero :
    answers ⟨0x0#4, 255, 255⟩ ⟨7, 0, false⟩ ∧ answers ⟨0x1#4, 255, 255⟩ ⟨7, 0, false⟩ ∧
    answers ⟨0x4#4, 255, 255⟩ ⟨1, 0, false⟩ ∧ answers ⟨0x5#4, 255, 255⟩ ⟨1, 0, false⟩ ∧
    answers ⟨0x6#4, 255, 255⟩ ⟨2, 0, false⟩ ∧ answers ⟨0x8#4, 255, 255⟩ ⟨15, 15, false⟩ ∧
    answers ⟨0x9#4, 255, 255⟩ ⟨255, 0, false⟩ ∧ answers ⟨0xA#4, 255, 255⟩ ⟨15, 255, false⟩ ∧
    answers ⟨0xC#4, 255, 255⟩ ⟨15, 15, false⟩ ∧ answers ⟨0xD#4, 255, 255⟩ ⟨255, 0, false⟩ ∧
    answers ⟨0xE#4, 255, 255⟩ ⟨15, 15, false⟩ := by
  refine ⟨?_, ?_, ?_, ?_, ?_, ?_, ?_, ?_, ?_, ?_, ?_⟩ <;> exact fun s => ⟨_, rfl, rfl⟩

/-- The tag `110` offered to every operation that could let it out. -/
theorem witness_StatusTagSixNeverLeaves :
    answers ⟨0x0#4, 6, 0⟩ ⟨7, 0, false⟩ ∧ answers ⟨0x1#4, 6, 0⟩ ⟨7, 0, false⟩ ∧
    answers ⟨0xC#4, 0x65, 0⟩ ⟨5, 7, false⟩ ∧ answers ⟨0xE#4, 5, 6⟩ ⟨5, 7, false⟩ ∧
    answers ⟨0xD#4, 5, 6⟩ ⟨0x75, 0, false⟩ := by
  refine ⟨?_, ?_, ?_, ?_, ?_⟩ <;> exact fun s => ⟨_, rfl, rfl⟩

theorem witness_ExactlyTheReservedCodesAreIllegal :
    0xFFFFF < 2 ^ (2 * Config.default.semw + 4) ∧ 0xFFFFE < 2 ^ (2 * Config.default.semw + 4) := by decide

theorem witness_FieldValuesDoNotDependOnSemw :
    (⟨0xA#4, 255, 255⟩ : Cmd).a < 2 ^ Config.default.semw ∧ (⟨0xA#4, 255, 255⟩ : Cmd).b < 2 ^ Config.default.semw ∧
    (⟨0xA#4, 255, 255⟩ : Cmd).a < 2 ^ wide.semw ∧ (⟨0xA#4, 255, 255⟩ : Cmd).b < 2 ^ wide.semw := by decide

theorem witness_EveryCommandWordMatchesTheOperationMap : 0xFFFFFFFFF < 2 ^ (2 * wide.semw + 4) := by decide

theorem witness_StatusDecodeIsTheFallbackTable : 7 ∈ [0, 1, 2, 3, 4, 5, 7] ∧ 6 ∉ [0, 1, 2, 3, 4, 5, 7] ∧
    8 ∉ [0, 1, 2, 3, 4, 5, 7] := by decide

theorem witness_ResolutionFunctions : 2 ≤ 2 := by decide

/-- Each clause at its boundary: `(15, 15)`, `(20, 16)`, `(16, 15)`. -/
theorem witness_IdentifierRoundTrip : (15 ≤ 15 ∧ 15 ≤ 15) ∧ 15 < 16 ∧ (15 < 16 ∧ 15 ≤ 15) := by decide

theorem witness_IdentifierDecodeIsABijection : (⟨15#4, 15⟩ : BatteryIdentifier).identifier ≤ 15 := by decide

theorem witness_DescriptiveRoundTrip : 15 ≤ 15 := by decide

theorem witness_DescriptiveByteReencodesButForSix : 0xE0 / 16 % 8 = 6 := by decide

/-- The operands of the decoding clause of every result statement (`ScDecResult` to `ReservedCodesGiveIll`), at the
largest values of two engines. -/
theorem witness_results : (255 < 2 ^ Config.default.semw ∧ 255 < 2 ^ Config.default.semw) ∧
    (65535 < 2 ^ wide.semw ∧ 65535 < 2 ^ wide.semw) := by decide

/-- A state with the invariant whose step answers. -/
def ready : State := start Config.default [(0, 6), (1, 200)] [formScEnc 2 (.temp 0), formBiCon 3 4 (.temp 1) (.lit 255)]

theorem witness_StepKeepsTheInvariant : Inv ready ∧ ∃ t : State, step ready = .next t :=
  ⟨⟨by decide, by decide, fun _ => ⟨_, rfl, rfl⟩, by decide, by decide⟩, ⟨_, rfl⟩⟩

theorem witness_StepRunsTheDecodedInstruction :
    ready.pending = formScEnc 2 (.temp 0) :: [formBiCon 3 4 (.temp 1) (.lit 255)] ∧
    operandValue ready.temps (formScEnc 2 (.temp 0)).a = .ok 6 ∧ operandValue ready.temps (formScEnc 2 (.temp 0)).b = .ok 0 ∧
    6 < 2 ^ ready.cfg.semw ∧ 0 < 2 ^ ready.cfg.semw ∧
    decode ready.cfg (cmdWord ready.cfg ⟨0x1#4, 6, 0⟩) = .ok (.scEnc 6#3) := by decide

/-- The clauses in order: nothing left, an unreadable `a`, an unreadable `b`, an operand of 256 and one of 255. -/
theorem witness_WhenAStepStops : State.reset.pending = [] ∧
    operandValue [] (formBiCon 0 1 (.temp 7) (.lit 0)).a = .error (.unwrittenTemporary 7) ∧
    (operandValue [] (formBiCon 0 1 (.lit 0) (.temp 8)).a = .ok 0 ∧
      operandValue [] (formBiCon 0 1 (.lit 0) (.temp 8)).b = .error (.unwrittenTemporary 8)) ∧
    (operandValue [] (formBiCon 0 1 (.lit 256) (.lit 0)).a = .ok 256 ∧
      operandValue [] (formBiCon 0 1 (.lit 256) (.lit 0)).b = .ok 0) ∧
    (operandValue [] (formBiCon 0 1 (.lit 255) (.lit 0)).a = .ok 255 ∧
      operandValue [] (formBiCon 0 1 (.lit 255) (.lit 0)).b = .ok 0) := by decide

theorem witness_UnwrittenTemporaryFaults :
    (start Config.default [(0, 6)] [formScEnc 1 (.temp 9)]).pending = formScEnc 1 (.temp 9) :: [] ∧
    ∃ t : Nat, t ∈ readsOf (formScEnc 1 (.temp 9)) ∧ readTemp [(0, 6)] t = none :=
  ⟨rfl, 9, by decide, by decide⟩

theorem witness_StepFrame : ready.pending = formScEnc 2 (.temp 0) :: [formBiCon 3 4 (.temp 1) (.lit 255)] ∧
    ∃ t : State, step ready = .next t := ⟨rfl, _, rfl⟩

/-- A command that samples every field, the temporary 1 twice. -/
def samplesAll : HostCmd :=
  ⟨0xC#4, whole (.lit 0xE5), [],
    [(1, .r0), (1, .r1), (2, .r1Status), (3, .r1Resolution), (4, .ill), (5, .whole), (6, .r0)]⟩

/-- Each clause, with temporaries named before and after. -/
theorem witness_SampledTemporaryHoldsItsField :
    (start Config.default [(1, 9)] [samplesAll]).pending = samplesAll :: [] ∧
    (samplesAll.dests = samplesAll.dests.take 1 ++ (1, .r1) :: samplesAll.dests.drop 2 ∧ 1 ∉ [2, 3, 4, 5, 6]) ∧
    (samplesAll.dests = samplesAll.dests.take 2 ++ (2, .r1Status) :: samplesAll.dests.drop 3 ∧ 2 ∉ [3, 4, 5, 6]) ∧
    (samplesAll.dests = samplesAll.dests.take 3 ++ (3, .r1Resolution) :: samplesAll.dests.drop 4 ∧ 3 ∉ [4, 5, 6]) ∧
    (samplesAll.dests = samplesAll.dests.take 4 ++ (4, .ill) :: samplesAll.dests.drop 5 ∧ 4 ∉ [5, 6]) ∧
    (samplesAll.dests = samplesAll.dests.take 5 ++ (5, .whole) :: samplesAll.dests.drop 6 ∧ 5 ∉ [6]) ∧
    samplesAll.dests = samplesAll.dests.take 6 ++ (6, .r0) :: [] ∧
    ∃ t : State, step (start Config.default [(1, 9)] [samplesAll]) = .next t :=
  ⟨rfl, by decide, by decide, by decide, by decide, by decide, by decide, _, rfl⟩

/-- Two states that agree on `SEMW`, the next command and its operands, and on nothing else. -/
theorem witness_ResponseDependsOnItsOwnCommandAlone :
    ready.pending = formScEnc 2 (.temp 0) :: [formBiCon 3 4 (.temp 1) (.lit 255)] ∧
    (start Config.default [(0, 6)] [formScEnc 2 (.temp 0)]).pending = formScEnc 2 (.temp 0) :: [] ∧
    ready.cfg = (start Config.default [(0, 6)] [formScEnc 2 (.temp 0)]).cfg ∧
    operandValue ready.temps (formScEnc 2 (.temp 0)).a = operandValue [(0, 6)] (formScEnc 2 (.temp 0)).a ∧
    operandValue ready.temps (formScEnc 2 (.temp 0)).b = operandValue [(0, 6)] (formScEnc 2 (.temp 0)).b ∧
    ∃ t : State, step ready = .next t := ⟨rfl, rfl, rfl, by decide, by decide, _, rfl⟩

theorem witness_IndependentCommandsCommute :
    independent (formScEnc 2 (.temp 0)) (formBiCon 3 4 (.temp 1) (.lit 255)) ∧
    ∃ t : State, Host.Core.run Sys2Proof.core 2
      { ready with pending := formScEnc 2 (.temp 0) :: formBiCon 3 4 (.temp 1) (.lit 255) :: [] } = .next t :=
  ⟨by unfold independent readIndependent; decide, ⟨_, rfl⟩⟩

/-- Two commands that sample into the same temporary. -/
theorem witness_ResponsesCommute : readIndependent (formScEnc 2 (.temp 0)) (formBiCon 2 4 (.temp 1) (.lit 255)) ∧
    ∃ s' t : State,
      step { ready with pending := formScEnc 2 (.temp 0) :: formBiCon 2 4 (.temp 1) (.lit 255) :: [] } = .next s' ∧
      step s' = .next t :=
  ⟨by unfold readIndependent; decide, ⟨_, _, rfl, rfl⟩⟩

theorem witness_IllegalCommandHasNoAfterEffect : isReserved (0x3#4).toNat = true ∧
    (⟨0x3#4, whole (.lit 0x23), [], []⟩ : HostCmd).dests = [] ∧
    ∃ t : State, Host.Core.run Sys2Proof.core 2
      { ready with pending := ⟨0x3#4, whole (.lit 0x23), [], []⟩ :: formScEnc 2 (.temp 0) :: [] } = .next t :=
  ⟨by decide, rfl, ⟨_, rfl⟩⟩

/-- A sequence of literal commands: a reserved code and each of the eleven forms. -/
theorem witness_LiteralProgramsRunToTheirEnd : ∀ h ∈ [(⟨0xB#4, whole (.lit 255), whole (.lit 255), []⟩ : HostCmd),
    formScDec 0 (.lit 255), formScEnc 0 (.lit 7), formRcDec 0 (.lit 255), formRcEnc 0 (.lit 1), formRcMul 0 (.lit 1),
    formBiDec 0 1 (.lit 255), formBiEnc 0 (.lit 15) (.lit 255), formBiCon 0 1 (.lit 255) (.lit 255),
    formBdfDec 0 1 2 (.lit 255), formBdfEnc 0 (.lit 15) (.lit 7) (.lit 1),
    formBdfCon 0 1 2 (.lit 255) (.lit 7) (.lit 1)], literal Config.default h := by
  intro h hh
  simp only [List.mem_cons, List.not_mem_nil, or_false] at hh
  rcases hh with rfl | rfl | rfl | rfl | rfl | rfl | rfl | rfl | rfl | rfl | rfl | rfl <;>
    exact ⟨rfl, _, _, rfl, rfl, by decide, by decide⟩

theorem witness_WellFormedProgramsNeverFault : programWf (ready.temps.map Prod.fst) ready.pending = true := by decide

/-- A temporary and a number that fit, and the two largest tags. -/
theorem witness_FormsWriteTheirFields :
    sourceValue ready.temps (.temp 1) = .ok 200 ∧ sourceValue ready.temps (.lit 255) = .ok 255 ∧
    sourceValue ready.temps (.lit 7) = .ok 7 ∧ sourceValue ready.temps (.lit 1) = .ok 1 ∧
    200 < 2 ^ ready.cfg.semw ∧ 255 < 2 ^ ready.cfg.semw ∧ 7 < 8 ∧ 1 < 2 := by decide

/-- As for `FormsWriteTheirFields`, with three distinct temporaries; also for `PairedTagsChain`. -/
theorem witness_FormsSampleTheirResults : 2 ≠ 3 ∧ 2 ≠ 4 ∧ 3 ≠ 4 ∧
    sourceValue ready.temps (.temp 1) = .ok 200 ∧ sourceValue ready.temps (.lit 255) = .ok 255 ∧
    sourceValue ready.temps (.lit 7) = .ok 7 ∧ sourceValue ready.temps (.lit 1) = .ok 1 ∧
    200 < 2 ^ ready.cfg.semw ∧ 255 < 2 ^ ready.cfg.semw ∧ 7 < 8 ∧ 1 < 2 := by decide

/-- The tags of program P2 in one temporary. -/
theorem witness_PairedTagsChain : 2 ≠ 3 ∧
    sourceValue [(0, 10), (1, 7)] (.temp 0) = .ok 10 ∧ sourceValue [(0, 10), (1, 7)] (.temp 1) = .ok 7 ∧
    sourceValue [(0, 10), (1, 7)] (.lit 6) = .ok 6 ∧ sourceValue [(0, 10), (1, 7)] (.lit 0) = .ok 0 ∧
    10 < 2 ^ Config.default.semw ∧ 7 < 2 ^ Config.default.semw ∧ 6 < 8 ∧ 0 < 2 := by decide

/-- Program P4, steps 2 and 3. -/
theorem witness_SampledIllegalCommandHasNoAfterEffect : isReserved (0x3#4).toNat = true ∧
    (∀ n ∈ writesOf (⟨0x3#4, whole (.lit 0x23), [], [(1, .whole)]⟩ : HostCmd), n ∉ readsOf (formScEnc 2 (.temp 0))) ∧
    ∃ t : State, Host.Core.run Sys2Proof.core 2
      { ready with pending := ⟨0x3#4, whole (.lit 0x23), [], [(1, .whole)]⟩ :: formScEnc 2 (.temp 0) :: [] } = .next t :=
  ⟨by decide, by decide, ⟨_, rfl⟩⟩

theorem witness_StepKeepsWellFormedPrograms : programWf (ready.temps.map Prod.fst) ready.pending = true ∧
    ∃ t : State, step ready = .next t := ⟨by decide, _, rfl⟩

end Sys2Proof.Tests
end

section
/-! SUPPORT. The command word's number and its fields (R45): a command whose fields fit the ports is read back by the
decoder exactly. -/

namespace Sys2Proof

theorem cmd_wf_iff (c : Config) (cmd : Cmd) :
    cmd.wf c = true ↔ cmd.a < 2 ^ c.semw ∧ cmd.b < 2 ^ c.semw := by
  simp [Cmd.wf, Config.fits]

/-- R45 in nested form: each field is a digit above the one before it. -/
theorem cmdWord_eq_nested (c : Config) (cmd : Cmd) :
    cmdWord c cmd = cmd.op.toNat + 16 * (cmd.a + 2 ^ c.semw * cmd.b) := by
  unfold cmdWord
  ring

theorem cmdWord_lt (c : Config) (cmd : Cmd) (h : cmd.wf c = true) : cmdWord c cmd < 2 ^ cmdWidth c := by
  obtain ⟨ha, hb⟩ := (cmd_wf_iff c cmd).mp h
  have hop : cmd.op.toNat < 16 := cmd.op.isLt
  have hab : cmd.a + 2 ^ c.semw * cmd.b < 2 ^ c.semw * 2 ^ c.semw :=
    calc cmd.a + 2 ^ c.semw * cmd.b
        < 2 ^ c.semw * (cmd.b + 1) := by rw [Nat.mul_succ]; omega
      _ ≤ 2 ^ c.semw * 2 ^ c.semw := Nat.mul_le_mul_left _ hb
  have hwidth : 2 ^ cmdWidth c = 16 * (2 ^ c.semw * 2 ^ c.semw) := by
    unfold cmdWidth
    ring
  rw [cmdWord_eq_nested, hwidth]
  omega

theorem cmdOfWord_cmdWord (c : Config) (cmd : Cmd) (h : cmd.wf c = true) : cmdOfWord c (cmdWord c cmd) = cmd := by
  obtain ⟨ha, hb⟩ := (cmd_wf_iff c cmd).mp h
  obtain ⟨op, a, b⟩ := cmd
  have hop : op.toNat < 16 := op.isLt
  have hdiv : (op.toNat + 16 * (a + 2 ^ c.semw * b)) / 16 = a + 2 ^ c.semw * b := by omega
  have hpow : 2 ^ (c.semw + 4) = 16 * 2 ^ c.semw := by ring
  simp only [cmdOfWord, cmdWord_eq_nested, Nat.shiftRight_eq_div_pow, Cmd.mk.injEq]
  refine ⟨BitVec.eq_of_toNat_eq ?_, ?_, ?_⟩
  · rw [BitVec.toNat_ofNat]
    omega
  · rw [show 2 ^ 4 = 16 from rfl, hdiv, Nat.add_mul_mod_self_left, Nat.mod_eq_of_lt ha]
  · rw [hpow, ← Nat.div_div_eq_div_mul, hdiv, Nat.add_mul_div_left _ _ (Nat.two_pow_pos _), Nat.div_eq_of_lt ha,
      Nat.zero_add, Nat.mod_eq_of_lt hb]

/-- R45 and R47: the word of a command that fits is decoded to the instruction its fields select. -/
theorem decode_cmdWord (c : Config) (cmd : Cmd) (h : cmd.wf c = true) :
    decode c (cmdWord c cmd) = .ok (instrOfCmd cmd) := by
  simp only [decode, cmdWord_lt c cmd h, cmdOfWord_cmdWord c cmd h, if_true]

/-- The sixteen op-select codes (R48). -/
theorem opSel_cases (op : OpSel) :
    op = 0x0#4 ∨ op = 0x1#4 ∨ op = 0x2#4 ∨ op = 0x3#4 ∨ op = 0x4#4 ∨ op = 0x5#4 ∨ op = 0x6#4 ∨ op = 0x7#4 ∨
    op = 0x8#4 ∨ op = 0x9#4 ∨ op = 0xA#4 ∨ op = 0xB#4 ∨ op = 0xC#4 ∨ op = 0xD#4 ∨ op = 0xE#4 ∨ op = 0xF#4 := by
  revert op
  decide

theorem tableWord_lt (nbits w : Nat) : tableWord nbits w < 2 ^ cmdWidth Config.default :=
  Nat.mod_lt _ (Nat.two_pow_pos _)

theorem decodeTableWord_eq (nbits w : Nat) :
    decodeTableWord nbits w = some (instrOfCmd (cmdOfWord Config.default (tableWord nbits w))) := by
  simp only [decodeTableWord, decode, tableWord_lt, if_true]

/-- The fields of a word read at the table's `SEMW = 8` fit the ports at every `SEMW` (R6). -/
theorem cmdOfWord_default_wf (c : Config) (w : Nat) : (cmdOfWord Config.default w).wf c = true := by
  have hmod (v : Nat) : c.fits (v % 2 ^ Config.default.semw) = true :=
    Laws.fits_of_lt_256 c (Nat.mod_lt _ (Nat.two_pow_pos _))
  simp only [Cmd.wf, cmdOfWord, hmod, Bool.and_self]

end Sys2Proof
end

section
/-! SUPPORT. A step forwards: what it gives when its operands are readable and fit the port. -/

namespace Sys2Proof.Machine

theorem presentWord_of_pending {s : State} {h : HostCmd} {rest : List HostCmd} (hp : s.pending = h :: rest)
    (op : OpSel) (a b : Nat) : presentWord op a b s = { s with cmd := ⟨op, a, b⟩, pending := rest } := by
  simp only [presentWord, hp, List.tail_cons]

theorem present_of_operands {s : State} {h : HostCmd} {a b : Nat} (ha : operandValue s.temps h.a = .ok a)
    (hb : operandValue s.temps h.b = .ok b) (hw : Cmd.wf s.cfg ⟨h.op, a, b⟩ = true) :
    present h s = .next (presentWord h.op a b s) := by
  simp only [present, ha, hb, hw, if_true]

/-- R14 and R47: a readable command that fits is presented, answered with the one response of its instruction, and
sampled. The converse of `runCommand_next`. -/
theorem step_of_operands {s : State} {h : HostCmd} {rest : List HostCmd} {a b : Nat} {r : Rsp}
    (hp : s.pending = h :: rest) (ha : operandValue s.temps h.a = .ok a) (hb : operandValue s.temps h.b = .ok b)
    (hw : Cmd.wf s.cfg ⟨h.op, a, b⟩ = true)
    (hx : ∀ u : State, exec (instrOfCmd ⟨h.op, a, b⟩) u = .next (putRsp r u)) :
    step s = .next (sample h.dests (putRsp r (presentWord h.op a b s))) := by
  have hfetch : fetchInstr (presentWord h.op a b s) = .ok (instrOfCmd ⟨h.op, a, b⟩) := decode_cmdWord s.cfg _ hw
  simp only [step, hp, runCommand, present_of_operands ha hb hw, engineStep, hfetch, hx]

/-- R54 and R90: a command's response has `ill` set exactly where its op-select code is reserved. -/
theorem exec_instrOfCmd_ill (cmd : Cmd) : ∃ r : Rsp, r.ill = Safety.isReserved cmd.op.toNat ∧
    ∀ s : State, exec (instrOfCmd cmd) s = .next (putRsp r s) := by
  obtain ⟨op, a, b⟩ := cmd
  rcases opSel_cases op with
    rfl | rfl | rfl | rfl | rfl | rfl | rfl | rfl | rfl | rfl | rfl | rfl | rfl | rfl | rfl | rfl <;>
    exact ⟨_, rfl, fun _ => rfl⟩

theorem operandValue_whole_lit (temps : List (Nat × Nat)) (n : Nat) :
    operandValue temps (whole (.lit n)) = .ok n := by
  simp [whole, operandValue, termValue, sourceValue]

/-- A command that reads no temporary has the same operands over any two sets of temporaries. -/
theorem operandValue_of_readsOf_nil {h : HostCmd} (hr : Safety.readsOf h = []) (temps temps' : List (Nat × Nat)) :
    operandValue temps h.a = operandValue temps' h.a ∧ operandValue temps h.b = operandValue temps' h.b := by
  have hlit : ∀ x ∈ h.a ++ h.b, ∀ t : Nat, x.source ≠ .temp t := by
    intro x hx t hs
    have := List.filterMap_eq_nil_iff.mp hr x hx
    simp [hs] at this
  exact ⟨operandValue_congr _ _ _ fun x hx t hs => absurd hs (hlit x (List.mem_append_left _ hx) t),
    operandValue_congr _ _ _ fun x hx t hs => absurd hs (hlit x (List.mem_append_right _ hx) t)⟩

/-- A literal command is answered, whatever the temporaries; only an `ill` of a reserved code marks the run. -/
theorem step_of_literal {s : State} {h : HostCmd} {rest : List HostCmd} (hp : s.pending = h :: rest)
    (hl : Safety.literal s.cfg h) : ∃ t : State, step s = .next t ∧ t.cfg = s.cfg ∧ t.pending = rest ∧
      t.faultMark = (s.faultMark || Safety.isReserved h.op.toNat) := by
  obtain ⟨hr, a, b, ha, hb, hfa, hfb⟩ := hl
  obtain ⟨ea, eb⟩ := operandValue_of_readsOf_nil hr s.temps []
  obtain ⟨r, hill, hx⟩ := exec_instrOfCmd_ill ⟨h.op, a, b⟩
  refine ⟨_, step_of_operands hp (ea.trans ha) (eb.trans hb) ((cmd_wf_iff _ _).mpr ⟨hfa, hfb⟩) hx, ?_⟩
  simp [hp, hill]

/-- The induction of `LiteralProgramsRunToTheirEnd`: along the sequence the mark collects the reserved codes. -/
theorem run_of_literals (cmds : List HostCmd) (s : State) (hp : s.pending = cmds)
    (hl : ∀ h ∈ cmds, Safety.literal s.cfg h) :
    ∃ t : State, Host.Core.run Sys2Proof.core cmds.length s = .next t ∧ t.pending = [] ∧
      t.faultMark = (s.faultMark || cmds.any fun h => Safety.isReserved h.op.toNat) := by
  induction cmds generalizing s with
  | nil => exact ⟨s, run_zero s, hp, by simp⟩
  | cons h rest ih =>
    obtain ⟨s', hs, hcfg, hp', hmark⟩ := step_of_literal hp (hl h List.mem_cons_self)
    obtain ⟨t, ht, hend, hmark'⟩ := ih s' hp' fun k hk => hcfg ▸ hl k (List.mem_cons_of_mem _ hk)
    refine ⟨t, (run_succ_next hs).trans ht, hend, ?_⟩
    rw [hmark', hmark, List.any_cons, Bool.or_assoc]

theorem final_iff (s : State) : Safety.final s = true ↔ s.pending = [] ∧ s.faultMark = false := by
  simp [Safety.final]

end Sys2Proof.Machine
end

section
/-! The statements of 00_scope.md. -/

namespace Sys2Proof.Scope

open Sys2Proof.Machine Sys2Proof.Safety

/-- Settles O9: both words decode to the instruction of the fields, whose response reads no state. -/
theorem fieldValuesDoNotDependOnSemw : Obligations.FieldValuesDoNotDependOnSemw := by
  intro c d cmd hac hbc had hbd
  obtain ⟨r, hx⟩ := exec_putsRsp (instrOfCmd cmd)
  exact ⟨instrOfCmd cmd, r, decode_cmdWord c cmd ((cmd_wf_iff c cmd).mpr ⟨hac, hbc⟩),
    decode_cmdWord d cmd ((cmd_wf_iff d cmd).mpr ⟨had, hbd⟩), fun s => ⟨_, hx s, rfl⟩⟩

/-- Settles O44: the step taken in one state gives the operands and the response of the step in the other. -/
theorem responseDependsOnItsOwnCommandAlone : Obligations.ResponseDependsOnItsOwnCommandAlone := by
  intro s u t h rest rest' hps hpu hcfg hA hB hst
  obtain ⟨k, rest'', hpk, hrun⟩ := step_next hst
  obtain ⟨rfl, -⟩ := List.cons.inj (hps.symm.trans hpk)
  obtain ⟨a, b, i, r, ha, hb, hw, hd, hx, rfl⟩ := runCommand_next hrun
  obtain rfl : instrOfCmd ⟨h.op, a, b⟩ = i := Except.ok.inj ((decode_cmdWord s.cfg _ hw).symm.trans hd)
  exact ⟨_, step_of_operands hpu (hA ▸ ha) (hB ▸ hb) (hcfg ▸ hw) hx, rfl, rfl⟩

/-- Settles O47, by the induction of `run_of_literals` along the host's sequence. -/
theorem literalProgramsRunToTheirEnd : Obligations.LiteralProgramsRunToTheirEnd := by
  intro s hl
  obtain ⟨t, hrun, hend, hmark⟩ := run_of_literals s.pending s rfl hl
  refine ⟨t, hrun, hend, ?_⟩
  simp [final_iff, hend, hmark]

/-- Settles O50: the placed operands are the fields of the word, which fit every `SEMW`, and are sampled nowhere. -/
theorem placedTableWordRunsNext : Obligations.PlacedTableWordRunsNext := by
  intro s nbits w
  obtain ⟨r, hx⟩ := exec_putsRsp (instrOfCmd (cmdOfWord Config.default (tableWord nbits w)))
  have hstep := step_of_operands (withFetchWord_pending s nbits w) (operandValue_whole_lit _ _)
    (operandValue_whole_lit _ _) (cmdOfWord_default_wf s.cfg (tableWord nbits w)) hx
  exact ⟨_, _, _, decodeTableWord_eq nbits w, hstep, hx s, rfl, rfl, rfl, rfl, rfl⟩

/-- Settles O39: the decoder's instruction is the one of the fields, and `step_of_operands` says what the step gives. -/
theorem stepRunsTheDecodedInstruction : Obligations.StepRunsTheDecodedInstruction := by
  intro s h rest a b i hp ha hb hfa hfb hd
  have hw : Cmd.wf s.cfg ⟨h.op, a, b⟩ = true := (cmd_wf_iff _ _).mpr ⟨hfa, hfb⟩
  obtain rfl : instrOfCmd ⟨h.op, a, b⟩ = i := Except.ok.inj ((decode_cmdWord s.cfg _ hw).symm.trans hd)
  obtain ⟨r, hx⟩ := exec_putsRsp (instrOfCmd ⟨h.op, a, b⟩)
  refine ⟨_, hx _, ?_⟩
  rw [← presentWord_of_pending hp]
  exact step_of_operands hp ha hb hw hx

end Sys2Proof.Scope
end

section
/-! SUPPORT. The host's reads: which temporaries a command reads, and when its operands have a value (R31). -/

namespace Sys2Proof.Machine

open Sys2Proof.Safety

theorem mem_readsOf (h : HostCmd) (t : Nat) : t ∈ readsOf h ↔ ∃ x ∈ h.a ++ h.b, x.source = .temp t := by
  simp only [readsOf, List.mem_filterMap]
  refine exists_congr fun x => and_congr_right fun _ => ?_
  cases x.source <;> simp

/-- The fault of an unreadable operand names an unwritten temporary that the command reads. -/
theorem unwritten_of_operandValue_error {temps : List (Nat × Nat)} {h : HostCmd} {terms : List Term} {f : Fault}
    (hsub : terms ⊆ h.a ++ h.b) (he : operandValue temps terms = .error f) :
    ∃ t : Nat, f = .unwrittenTemporary t ∧ t ∈ readsOf h ∧ readTemp temps t = none := by
  obtain ⟨t, hf, hn, x, hx, hs⟩ := operandValue_error he
  exact ⟨t, hf, (mem_readsOf h t).mpr ⟨x, hsub hx, hs⟩, hn⟩

/-- A readable operand reads written temporaries only. The converse of `operandValue_error`. -/
theorem readTemp_ne_none_of_operandValue_ok {temps : List (Nat × Nat)} {terms : List Term} {v : Nat}
    (h : operandValue temps terms = .ok v) {x : Term} (hx : x ∈ terms) {t : Nat} (hs : x.source = .temp t) :
    readTemp temps t ≠ none := by
  induction terms generalizing v with
  | nil => simp at hx
  | cons y rest ih =>
    unfold operandValue at h
    cases hy : termValue temps y with
    | error f => simp [hy] at h
    | ok n =>
      cases hr : operandValue temps rest with
      | error f => simp [hy, hr] at h
      | ok w =>
        rcases List.mem_cons.mp hx with rfl | hx
        · intro hn
          simp [termValue, sourceValue, hs, hn] at hy
        · exact ih hr hx

theorem readsOnly_iff (written : List Nat) (h : HostCmd) :
    h.readsOnly written = true ↔ ∀ t ∈ readsOf h, t ∈ written := by
  simp only [HostCmd.readsOnly, List.all_eq_true, mem_readsOf]
  constructor
  · rintro hall t ⟨x, hx, hs⟩
    simpa [hs, Source.readsOnly] using hall x hx
  · intro hall x hx
    cases hs : x.source with
    | lit n => rfl
    | temp t => simpa [Source.readsOnly] using hall t ⟨x, hx, hs⟩

/-- More written temporaries keep a program well-formed; the order in which they are listed does not matter. -/
theorem programWf_mono {written written' : List Nat} (hsub : written ⊆ written') {program : List HostCmd}
    (hwf : programWf written program = true) : programWf written' program = true := by
  induction program generalizing written written' with
  | nil => rfl
  | cons h rest ih =>
    simp only [programWf, Bool.and_eq_true, readsOnly_iff] at hwf ⊢
    obtain ⟨hreads, hrest⟩ := hwf
    have hsub' : h.dests.map Prod.fst ++ written ⊆ h.dests.map Prod.fst ++ written' :=
      List.append_subset.mpr ⟨List.subset_append_left _ _, List.Subset.trans hsub (List.subset_append_right _ _)⟩
    exact ⟨fun t ht => hsub (hreads t ht), ih hsub' hrest⟩

end Sys2Proof.Machine
end

section
/-! SUPPORT. A step in each of its cases (R14, R31; log entries 4, 5 and 8), and from its outcome back to the case. -/

namespace Sys2Proof.Machine

open Sys2Proof.Safety

theorem step_of_pending_nil {s : State} (hp : s.pending = []) : step s = .refused .runEnded := by
  simp only [step, hp]

theorem step_of_pending_cons {s : State} {h : HostCmd} {rest : List HostCmd} (hp : s.pending = h :: rest) :
    step s = runCommand h s := by
  simp only [step, hp]

theorem step_of_a_error {s : State} {h : HostCmd} {rest : List HostCmd} {f : Fault} (hp : s.pending = h :: rest)
    (ha : operandValue s.temps h.a = .error f) : step s = .fault f := by
  simp only [step_of_pending_cons hp, runCommand, present, ha]

theorem step_of_b_error {s : State} {h : HostCmd} {rest : List HostCmd} {a : Nat} {f : Fault}
    (hp : s.pending = h :: rest) (ha : operandValue s.temps h.a = .ok a) (hb : operandValue s.temps h.b = .error f) :
    step s = .fault f := by
  simp only [step_of_pending_cons hp, runCommand, present, ha, hb]

theorem step_of_not_wf {s : State} {h : HostCmd} {rest : List HostCmd} {a b : Nat} (hp : s.pending = h :: rest)
    (ha : operandValue s.temps h.a = .ok a) (hb : operandValue s.temps h.b = .ok b)
    (hw : ¬ Cmd.wf s.cfg ⟨h.op, a, b⟩ = true) : step s = .refused .notACommandWord := by
  simp only [step_of_pending_cons hp, runCommand, present, ha, hb, if_neg hw]

/-- A readable command that fits the port is answered. -/
theorem step_answers_of_operands {s : State} {h : HostCmd} {rest : List HostCmd} {a b : Nat}
    (hp : s.pending = h :: rest) (ha : operandValue s.temps h.a = .ok a) (hb : operandValue s.temps h.b = .ok b)
    (hw : Cmd.wf s.cfg ⟨h.op, a, b⟩ = true) : ∃ t : State, step s = .next t := by
  obtain ⟨r, hx⟩ := exec_putsRsp (instrOfCmd ⟨h.op, a, b⟩)
  exact ⟨_, step_of_operands hp ha hb hw hx⟩

/-- Everything a step that answers has done, with the instruction of the command's fields: the converse of
`step_of_operands`. -/
theorem step_next_operands {s t : State} {h : HostCmd} {rest : List HostCmd} (hp : s.pending = h :: rest)
    (hs : step s = .next t) :
    ∃ (a b : Nat) (r : Rsp), Cmd.wf s.cfg ⟨h.op, a, b⟩ = true ∧
      (∀ u : State, exec (instrOfCmd ⟨h.op, a, b⟩) u = .next (putRsp r u)) ∧
      t = sample h.dests (putRsp r (presentWord h.op a b s)) := by
  rw [step_of_pending_cons hp] at hs
  obtain ⟨a, b, i, r, -, -, hw, hd, hx, ht⟩ := runCommand_next hs
  obtain rfl : instrOfCmd ⟨h.op, a, b⟩ = i := Except.ok.inj ((decode_cmdWord s.cfg _ hw).symm.trans hd)
  exact ⟨a, b, r, hw, hx, ht⟩

/-- R31: the only fault of a step is a read of a temporary that nothing has written, by the next command. -/
theorem step_fault {s : State} {f : Fault} (hs : step s = .fault f) :
    ∃ (h : HostCmd) (rest : List HostCmd) (t : Nat), s.pending = h :: rest ∧ f = .unwrittenTemporary t ∧
      t ∈ readsOf h ∧ readTemp s.temps t = none := by
  cases hp : s.pending with
  | nil => simp [step_of_pending_nil hp] at hs
  | cons h rest =>
    cases ha : operandValue s.temps h.a with
    | error g =>
      obtain rfl := Host.Outcome.fault.inj ((step_of_a_error hp ha).symm.trans hs)
      obtain ⟨t, ht⟩ := unwritten_of_operandValue_error (List.subset_append_left _ _) ha
      exact ⟨h, rest, t, rfl, ht⟩
    | ok a =>
      cases hb : operandValue s.temps h.b with
      | error g =>
        obtain rfl := Host.Outcome.fault.inj ((step_of_b_error hp ha hb).symm.trans hs)
        obtain ⟨t, ht⟩ := unwritten_of_operandValue_error (List.subset_append_right _ _) hb
        exact ⟨h, rest, t, rfl, ht⟩
      | ok b =>
        by_cases hw : Cmd.wf s.cfg ⟨h.op, a, b⟩ = true
        · obtain ⟨t, ht⟩ := step_answers_of_operands hp ha hb hw
          simp [ht] at hs
        · simp [step_of_not_wf hp ha hb hw] at hs

/-- R31: a command that reads a temporary nothing has written faults: its operands cannot both have a value. -/
theorem step_faults_of_unwritten {s : State} {h : HostCmd} {rest : List HostCmd} (hp : s.pending = h :: rest) {t : Nat}
    (ht : t ∈ readsOf h) (hn : readTemp s.temps t = none) : ∃ f : Fault, step s = .fault f := by
  cases ha : operandValue s.temps h.a with
  | error f => exact ⟨f, step_of_a_error hp ha⟩
  | ok a =>
    cases hb : operandValue s.temps h.b with
    | error f => exact ⟨f, step_of_b_error hp ha hb⟩
    | ok b =>
      obtain ⟨x, hx, hs⟩ := (mem_readsOf h t).mp ht
      rcases List.mem_append.mp hx with hx | hx
      · exact absurd hn (readTemp_ne_none_of_operandValue_ok ha hx hs)
      · exact absurd hn (readTemp_ne_none_of_operandValue_ok hb hx hs)

theorem step_pending {s t : State} {h : HostCmd} {rest : List HostCmd} (hp : s.pending = h :: rest)
    (hs : step s = .next t) : t.pending = rest := by
  obtain ⟨a, b, r, -, -, rfl⟩ := step_next_operands hp hs
  simp [hp]

/-- The temporaries written after a step: those written before and those the command samples into. -/
theorem mem_keys_step {s t : State} {h : HostCmd} {rest : List HostCmd} (hp : s.pending = h :: rest)
    (hs : step s = .next t) (u : Nat) : u ∈ t.temps.map Prod.fst ↔ u ∈ writesOf h ∨ u ∈ s.temps.map Prod.fst := by
  obtain ⟨a, b, r, -, -, rfl⟩ := step_next_operands hp hs
  exact mem_keys_sampleTemps s.cfg r h.dests s.temps u

end Sys2Proof.Machine
end

section
/-! SUPPORT. The responses: their widths (R46, R51), and the bits of a result that carry a status (R27, R51, R84). -/

namespace Sys2Proof.Machine

open Sys2Proof.Safety

/-- R11 and R47: a command has one response. -/
theorem rsp_eq_of_answers {cmd : Cmd} {r r' : Rsp} (ha : answers cmd r)
    (hx : ∀ s : State, exec (instrOfCmd cmd) s = .next (putRsp r' s)) : r = r' := by
  obtain ⟨t, ht, rfl⟩ := ha State.reset
  obtain rfl := Host.Outcome.next.inj ((hx State.reset).symm.trans ht)
  rfl

theorem rcMultiplier_lt_256 (v : ResolutionCode) : rcMultiplier v < 256 := by
  cases v <;> decide

theorem biDecode_identifier_lt_256 (raw : Byte) : (biDecode raw).identifier < 256 :=
  lt_of_le_of_lt Nat.and_le_right (by decide)

/-- R46 and R51: the response to a well-formed instruction fits the port. Every result is of at most 8 bits but the
identifier of `BI.CON`, which is its operand as given (R75). -/
theorem exec_rsp_fits {c : Config} {i : Instr} (hw : i.wf c = true) :
    ∃ r : Rsp, c.fits r.r0 = true ∧ c.fits r.r1 = true ∧ ∀ s : State, exec i s = .next (putRsp r s) := by
  have hzero : c.fits 0 = true := Laws.fits_of_lt_256 c (by decide)
  have hbits {n : Nat} (hn : n ≤ 8) (x : BitVec n) : c.fits x.toNat = true :=
    Laws.fits_of_lt_256 c (x.isLt.trans_le (Nat.pow_le_pow_right (by decide) hn))
  have hpair (st : StatusTag) (re : ResolutionTag) : c.fits (tagPair st re) = true :=
    Laws.fits_of_lt_256 c ((Laws.tagPair_lt st re).trans (by decide))
  cases i with
  | scDec | scEnc | rcDec | rcEnc | biEnc | bdfEnc =>
    exact ⟨⟨_, _, _⟩, hbits (by decide) _, hzero, fun _ => rfl⟩
  | rcMul => exact ⟨⟨_, _, _⟩, Laws.fits_of_lt_256 c (rcMultiplier_lt_256 _), hzero, fun _ => rfl⟩
  | biDec raw =>
    exact ⟨⟨_, _, _⟩, hbits (by decide) _, Laws.fits_of_lt_256 c (biDecode_identifier_lt_256 raw), fun _ => rfl⟩
  | biCon count identifier =>
    obtain ⟨-, hid⟩ : c.fits count = true ∧ c.fits identifier = true := by simpa [Instr.wf] using hw
    exact ⟨⟨_, _, _⟩, hbits (by decide) _, hid, fun _ => rfl⟩
  | bdfDec | bdfCon => exact ⟨⟨_, _, _⟩, hbits (by decide) _, hpair _ _, fun _ => rfl⟩
  | reserved2 | reserved3 | reserved7 | reservedB | reservedF => exact ⟨⟨_, _, _⟩, hzero, hzero, fun _ => rfl⟩

/-- R45 and R50: a command that fits the ports selects a well-formed instruction. -/
theorem instrOfCmd_wf {c : Config} {cmd : Cmd} (hw : cmd.wf c = true) : (instrOfCmd cmd).wf c = true := by
  obtain ⟨op, a, b⟩ := cmd
  obtain ⟨ha, hb⟩ : c.fits a = true ∧ c.fits b = true := by simpa [Cmd.wf] using hw
  rcases opSel_cases op with
    rfl | rfl | rfl | rfl | rfl | rfl | rfl | rfl | rfl | rfl | rfl | rfl | rfl | rfl | rfl | rfl <;>
    simp [Instr.wf, ha, hb]

/-- The response to a command that fits the ports fits them (R45, R46). -/
theorem rsp_fits_of_wf {c : Config} {cmd : Cmd} {r : Rsp} (hw : cmd.wf c = true) (ha : answers cmd r) :
    r.r0 < 2 ^ c.semw ∧ r.r1 < 2 ^ c.semw := by
  obtain ⟨r', h0, h1, hx⟩ := exec_rsp_fits (instrOfCmd_wf hw)
  obtain rfl := rsp_eq_of_answers ha hx
  simpa [Config.fits] using And.intro h0 h1

theorem scEncode_ne_six (v : StatusCode) : (scEncode v).toNat ≠ 6 := by
  cases v <;> decide

/-- The two tags of R51 do not overlap. -/
theorem tagPair_eq_add (status : StatusTag) (resolution : ResolutionTag) :
    tagPair status resolution = status.toNat + 8 * resolution.toNat := by
  rw [tagPair, Nat.lor_comm, ← Nat.shiftLeft_add_eq_or_of_lt status.isLt, Nat.shiftLeft_eq]
  omega

/-- R27: the status bits `r1[2:0]` of a descriptive response are the code of a variant. -/
theorem tagPair_scEncode_ne_six (v : StatusCode) (resolution : ResolutionTag) :
    tagPair (scEncode v) resolution % 8 ≠ 6 := by
  have hcode := scEncode_ne_six v
  rw [tagPair_eq_add]
  omega

/-- R85: the three fields of the descriptive byte do not overlap. -/
theorem bdfOr_eq_add (v : BatteryDescriptiveField) :
    bdfOr v = v.coarseVoltage.toNat + 16 * (scEncode v.status).toNat + 128 * (rcEncode v.resolution).toNat := by
  have hlow : v.coarseVoltage.toNat ||| (scEncode v.status).toNat <<< 4 =
      v.coarseVoltage.toNat + 16 * (scEncode v.status).toNat := by
    rw [Nat.lor_comm, ← Nat.shiftLeft_add_eq_or_of_lt v.coarseVoltage.isLt, Nat.shiftLeft_eq]
    omega
  have hlt : v.coarseVoltage.toNat + 16 * (scEncode v.status).toNat < 2 ^ 7 := by omega
  rw [bdfOr, hlow, Nat.lor_comm, ← Nat.shiftLeft_add_eq_or_of_lt hlt, Nat.shiftLeft_eq]
  omega

/-- R84: bits 6:4 of the descriptive byte carry the status. -/
theorem bdfEncode_status (v : BatteryDescriptiveField) :
    (bdfEncode v).toNat / 16 % 8 = (scEncode v.status).toNat := by
  rw [bdfEncode, BitVec.toNat_ofNat, bdfOr_eq_add]
  omega

end Sys2Proof.Machine
end

section
/-! The statements of 10_state.md. -/

namespace Sys2Proof.StateOfRun

open Sys2Proof.Machine Sys2Proof.Safety

/-- Settles O38: the ports carry the presented word and the response of its instruction, and sampling keeps the
temporaries rising. -/
theorem stepKeepsTheInvariant : Obligations.StepKeepsTheInvariant := by
  intro s t hinv hst
  obtain ⟨h, rest, hp, -⟩ := step_next hst
  obtain ⟨a, b, r, hw, hx, rfl⟩ := step_next_operands hp hst
  have hanswers : answers ⟨h.op, a, b⟩ r := fun u => ⟨_, hx u, rfl⟩
  exact {
    cmdFits := hw
    rspFits := rsp_fits_of_wf hw hanswers
    rspIsExec := hanswers
    temps := sampleTemps_rising s.cfg r h.dests s.temps hinv.temps
    marked := fun (hill : r.ill = true) => by simp [hill] }

/-- Settles O54: a well-formed program's next command reads written temporaries only, and what it samples into counts as
written for the rest. -/
theorem stepKeepsWellFormedPrograms : Obligations.StepKeepsWellFormedPrograms := by
  intro s hwf
  constructor
  · intro f hf
    obtain ⟨h, rest, t, hp, -, ht, hn⟩ := step_fault hf
    rw [hp, programWf, Bool.and_eq_true, readsOnly_iff] at hwf
    obtain ⟨hreads, -⟩ := hwf
    exact (readTemp_eq_none s.temps t).mp hn (hreads t ht)
  · intro t hst
    obtain ⟨h, rest, hp, -⟩ := step_next hst
    rw [hp, programWf, Bool.and_eq_true] at hwf
    obtain ⟨-, hrest⟩ := hwf
    rw [step_pending hp hst]
    exact programWf_mono (fun u hu => (mem_keys_step hp hst u).mpr (List.mem_append.mp hu)) hrest

/-- Settles O33, for each of the five operations: the field that carries a status carries the code of a variant. -/
theorem statusTagSixNeverLeaves : Obligations.StatusTagSixNeverLeaves := by
  rintro ⟨op, a, b⟩ r hr
  refine ⟨?_, ?_, ?_⟩
  · rintro (rfl | rfl) <;> obtain rfl := rsp_eq_of_answers hr fun _ => rfl
    · exact scEncode_ne_six (scDecode a)
    · exact scEncode_ne_six (statusOfTag (statusField a))
  · rintro (rfl | rfl) <;> obtain rfl := rsp_eq_of_answers hr fun _ => rfl
    · exact tagPair_scEncode_ne_six (bdfDecode (rawByte a)).status _
    · exact tagPair_scEncode_ne_six (statusOfTag (statusField b)) _
  · rintro rfl
    obtain rfl := rsp_eq_of_answers hr fun _ => rfl
    exact bdfEncode_status _ ▸ scEncode_ne_six (statusOfTag (statusField b))

/-- Settles O40, a lemma for each case of the step. -/
theorem whenAStepStops : Obligations.WhenAStepStops := by
  intro s
  refine ⟨step_of_pending_nil, fun h rest hp => ⟨fun f => step_of_a_error hp, fun a f => step_of_b_error hp, ?_⟩⟩
  intro a b ha hb
  split
  · next hfit => exact step_answers_of_operands hp ha hb ((cmd_wf_iff _ _).mpr hfit)
  · next hfit => exact step_of_not_wf hp ha hb fun hw => hfit ((cmd_wf_iff _ _).mp hw)

/-- Settles O41: the step faults, and every fault of a step names an unwritten temporary of the next command. -/
theorem unwrittenTemporaryFaults : Obligations.UnwrittenTemporaryFaults := by
  rintro s h rest hp ⟨t, ht, hn⟩
  obtain ⟨f, hf⟩ := step_faults_of_unwritten hp ht hn
  obtain ⟨k, rest', u, hpk, rfl, hu, hnu⟩ := step_fault hf
  obtain ⟨rfl, -⟩ := List.cons.inj (hp.symm.trans hpk)
  exact ⟨u, hu, hnu, hf⟩

/-- Settles O42: what presenting, answering and sampling leave unchanged. -/
theorem stepFrame : Obligations.StepFrame := by
  intro s t h rest hp hst
  have hpending : t.pending = rest := step_pending hp hst
  obtain ⟨a, b, r, -, -, rfl⟩ := step_next_operands hp hst
  exact ⟨rfl, hpending, rfl, fun u hu => readTemp_sampleTemps_other s.cfg r h.dests s.temps u hu, rfl⟩

/-- Settles O48, by induction on the number of steps with the step lemma of O54. -/
theorem wellFormedProgramsNeverFault : Obligations.WellFormedProgramsNeverFault := by
  intro n
  induction n with
  | zero => simp [run_zero]
  | succ n ih =>
    intro s f hwf
    obtain ⟨hnofault, hkeeps⟩ := stepKeepsWellFormedPrograms s hwf
    cases hst : step s with
    | next t => exact run_succ_next hst ▸ ih t f (hkeeps t hst)
    | fault g => exact absurd hst (hnofault g)
    | refused g => simp [run_succ_refused hst]

/-- Settles O36: the zero command on the port is `SC.DEC` of 0, whose response is zero in every state. -/
theorem resetState : Obligations.ResetState :=
  ⟨rfl, rfl, rfl, rfl, fun _ => ⟨_, rfl, rfl⟩⟩

/-- Settles O55: the empty program reads nothing. -/
theorem resetProgramIsWellFormed : Obligations.ResetProgramIsWellFormed := rfl

end Sys2Proof.StateOfRun
end

section
/-! SUPPORT. Two commands in either order (R40): a run of two steps, what a command's operands and its samples depend on,
and samplings that change places. -/

namespace Sys2Proof.Machine

open Sys2Proof.Safety

theorem run_one (s : State) : Host.Core.run Sys2Proof.core 1 s = step s := by
  cases hs : step s with
  | next t => exact run_succ_next hs
  | fault f => exact run_succ_fault hs
  | refused r => exact run_succ_refused hs

theorem run_two_eq_next_iff {s t : State} :
    Host.Core.run Sys2Proof.core 2 s = .next t ↔ ∃ s' : State, step s = .next s' ∧ step s' = .next t := by
  cases hs : step s with
  | next s' =>
    rw [run_succ_next hs, run_one]
    exact ⟨fun ht => ⟨s', rfl, ht⟩, fun ⟨_, hs', ht⟩ => Host.Outcome.next.inj hs' ▸ ht⟩
  | fault f => simp [run_succ_fault hs]
  | refused r => simp [run_succ_refused hs]

/-- A command's operands depend on the temporaries it reads alone. -/
theorem operandValues_congr {h : HostCmd} {temps temps' : List (Nat × Nat)}
    (heq : ∀ t ∈ readsOf h, readTemp temps t = readTemp temps' t) :
    operandValue temps h.a = operandValue temps' h.a ∧ operandValue temps h.b = operandValue temps' h.b := by
  have hterm : ∀ x ∈ h.a ++ h.b, ∀ t : Nat, x.source = .temp t → readTemp temps t = readTemp temps' t :=
    fun x hx t hs => heq t ((mem_readsOf h t).mpr ⟨x, hx, hs⟩)
  exact ⟨operandValue_congr _ _ _ fun x hx => hterm x (List.mem_append_left _ hx),
    operandValue_congr _ _ _ fun x hx => hterm x (List.mem_append_right _ hx)⟩

/-- R31: a step changes the temporaries by sampling the response that it puts on `rsp`. -/
theorem step_temps {s t : State} {h : HostCmd} {rest : List HostCmd} (hp : s.pending = h :: rest)
    (hs : step s = .next t) : t.temps = sampleTemps s.cfg t.rsp s.temps h.dests := by
  obtain ⟨a, b, r, -, -, rfl⟩ := step_next_operands hp hs
  rfl

/-- The later of two samplings decides only the temporaries that it names. -/
theorem readTemp_sampleTemps_swap (c : Config) (r r' : Rsp) (ds ds' : List (Nat × RspField)) (temps : List (Nat × Nat))
    (u : Nat) (hu : u ∉ ds.map Prod.fst ∨ u ∉ ds'.map Prod.fst) :
    readTemp (sampleTemps c r (sampleTemps c r' temps ds') ds) u =
      readTemp (sampleTemps c r' (sampleTemps c r temps ds) ds') u := by
  by_cases hd : u ∈ ds.map Prod.fst
  · have hd' : u ∉ ds'.map Prod.fst := hu.resolve_left (not_not_intro hd)
    rw [readTemp_sampleTemps_other c r' ds' _ u hd']
    exact readTemp_sampleTemps_dest c r ds _ _ u hd
  · rw [readTemp_sampleTemps_other c r ds _ u hd]
    by_cases hd' : u ∈ ds'.map Prod.fst
    · exact readTemp_sampleTemps_dest c r' ds' _ _ u hd'
    · rw [readTemp_sampleTemps_other c r' ds' _ u hd', readTemp_sampleTemps_other c r' ds' _ u hd',
        readTemp_sampleTemps_other c r ds _ u hd]

end Sys2Proof.Machine
end

section
/-! The statements of 20_memory.md. -/

namespace Sys2Proof.Commute

open Sys2Proof.Machine Sys2Proof.Safety

/-- Settles O56: each command finds its operands unchanged by the other, so `ResponseDependsOnItsOwnCommandAlone` carries
its answer over to the other order; the two samplings then change places. -/
theorem responsesCommute : Obligations.ResponsesCommute := by
  rintro s s' t h k rest ⟨hNotRead, kNotRead⟩ hs ht
  obtain ⟨hcfg, hpending, -, hframe, -⟩ := StateOfRun.stepFrame _ s' h (k :: rest) rfl hs
  obtain ⟨ka, kb⟩ := operandValues_congr fun n hn => hframe n fun hw => hNotRead n hw hn
  obtain ⟨u', hu', hrsp', hcmd'⟩ := Scope.responseDependsOnItsOwnCommandAlone
    s' { s with pending := k :: h :: rest } t k rest (h :: rest) hpending rfl hcfg ka kb ht
  obtain ⟨hcfg', hpending', -, hframe', -⟩ := StateOfRun.stepFrame _ u' k (h :: rest) rfl hu'
  obtain ⟨ha, hb⟩ := operandValues_congr fun n hn => (hframe' n fun hw => kNotRead n hw hn).symm
  obtain ⟨u, hu, hrsp, hcmd⟩ := Scope.responseDependsOnItsOwnCommandAlone
    { s with pending := h :: k :: rest } u' s' h (k :: rest) rest rfl hpending' hcfg'.symm ha hb hs
  refine ⟨u', u, hu', hu, hcmd', hrsp', hcmd, hrsp, fun n hn => ?_⟩
  rw [step_temps hpending' hu, step_temps rfl hu', step_temps hpending ht, step_temps rfl hs, hcfg, hcfg', hrsp, hrsp']
  exact readTemp_sampleTemps_swap s.cfg s'.rsp t.rsp h.dests k.dests s.temps n hn

/-- Settles O45: `ResponsesCommute` gives the responses and the temporaries, and the frame of the steps the rest; the mark
collects the same two bits `ill`. -/
theorem independentCommandsCommute : Obligations.IndependentCommandsCommute := by
  rintro s t h k rest ⟨hread, hwrite⟩ hrun
  obtain ⟨s', hs, ht⟩ := run_two_eq_next_iff.mp hrun
  obtain ⟨u', u, hu', hu, -, hrsp', -, hrsp, htemps⟩ := responsesCommute s s' t h k rest hread hs ht
  obtain ⟨hcfg₁, hpending₁, -, -, hmark₁⟩ := StateOfRun.stepFrame _ s' h (k :: rest) rfl hs
  obtain ⟨hcfg₂, hpending₂, -, -, hmark₂⟩ := StateOfRun.stepFrame s' t k rest hpending₁ ht
  obtain ⟨hcfg₃, hpending₃, -, -, hmark₃⟩ := StateOfRun.stepFrame _ u' k (h :: rest) rfl hu'
  obtain ⟨hcfg₄, hpending₄, -, -, hmark₄⟩ := StateOfRun.stepFrame u' u h rest hpending₃ hu
  refine ⟨u, run_two_eq_next_iff.mpr ⟨u', hu', hu⟩, fun n => htemps n ?_, ?_, ?_, ?_⟩
  · exact Classical.or_iff_not_imp_left.mpr fun hn => hwrite n (not_not.mp hn)
  · rw [hmark₄, hmark₃, hmark₂, hmark₁, hrsp, hrsp', Bool.or_right_comm]
  · rw [hpending₄, hpending₂]
  · rw [hcfg₄, hcfg₃, hcfg₂, hcfg₁]

end Sys2Proof.Commute
end

section
/-! SUPPORT. The numbers in the fields: a command word and a response word from their fields and back (R45, R46), and the
operand fields of R50 as arithmetic on the number of the operand. -/

namespace Sys2Proof

/-- Every number has command fields that fit the ports (R45). -/
theorem cmdOfWord_wf (c : Config) (w : Nat) : (cmdOfWord c w).wf c = true :=
  (cmd_wf_iff c _).mpr ⟨Nat.mod_lt _ (Nat.two_pow_pos _), Nat.mod_lt _ (Nat.two_pow_pos _)⟩

theorem cmdOfWord_op_toNat (c : Config) (w : Nat) : (cmdOfWord c w).op.toNat = w % 16 :=
  BitVec.toNat_ofNat w 4

theorem cmdOfWord_a (c : Config) (w : Nat) : (cmdOfWord c w).a = w / 16 % 2 ^ c.semw := by
  simp only [cmdOfWord, Nat.shiftRight_eq_div_pow, Nat.reducePow]

/-- The field `b` of a command word is its top digit: nothing stands above it. -/
theorem cmdOfWord_b (c : Config) {w : Nat} (hw : w < 2 ^ cmdWidth c) : (cmdOfWord c w).b = w / 2 ^ (c.semw + 4) := by
  have hwidth : 2 ^ cmdWidth c = 2 ^ (c.semw + 4) * 2 ^ c.semw := by
    unfold cmdWidth
    ring
  simp only [cmdOfWord, Nat.shiftRight_eq_div_pow]
  exact Nat.mod_eq_of_lt (Nat.div_lt_of_lt_mul (hwidth ▸ hw))

/-- The converse of `cmdOfWord_cmdWord`: a command word is the number of its fields. -/
theorem cmdWord_cmdOfWord (c : Config) {w : Nat} (hw : w < 2 ^ cmdWidth c) : cmdWord c (cmdOfWord c w) = w := by
  have hb : w / 2 ^ (c.semw + 4) = w / 16 / 2 ^ c.semw := by
    rw [Nat.div_div_eq_div_mul, show 2 ^ (c.semw + 4) = 16 * 2 ^ c.semw by ring]
  rw [cmdWord_eq_nested, cmdOfWord_op_toNat, cmdOfWord_a, cmdOfWord_b c hw, hb, Nat.mod_add_div, Nat.mod_add_div]

theorem decode_of_lt (c : Config) {w : Nat} (hw : w < 2 ^ cmdWidth c) :
    decode c w = .ok (instrOfCmd (cmdOfWord c w)) :=
  if_pos hw

theorem decode_of_le (c : Config) {w : Nat} (hw : 2 ^ cmdWidth c ≤ w) : decode c w = .error .wordTooWide :=
  if_neg (Nat.not_lt.mpr hw)

@[simp] theorem toNat_statusField (v : Nat) : (statusField v).toNat = v % 8 := BitVec.toNat_ofNat v 3
@[simp] theorem toNat_resolutionField (v : Nat) : (resolutionField v).toNat = v % 2 := BitVec.toNat_ofNat v 1
@[simp] theorem toNat_nibbleField (v : Nat) : (nibbleField v).toNat = v % 16 := BitVec.toNat_ofNat v 4
@[simp] theorem toNat_rawByte (v : Nat) : (rawByte v).toNat = v % 256 := BitVec.toNat_ofNat v 8
@[simp] theorem toNat_resolutionField3 (v : Nat) : (resolutionField3 v).toNat = v / 8 % 2 := by
  simp only [resolutionField3, BitVec.toNat_ofNat, Nat.shiftRight_eq_div_pow, Nat.reducePow]

/-- R50 reads `b[2:0]` and `b[3]` back as the two tags that were put there. -/
theorem statusField_tagPair (status : StatusTag) (resolution : ResolutionTag) :
    statusField (tagPair status resolution) = status := by
  apply BitVec.eq_of_toNat_eq
  rw [toNat_statusField, Machine.tagPair_eq_add]
  omega

theorem resolutionField3_tagPair (status : StatusTag) (resolution : ResolutionTag) :
    resolutionField3 (tagPair status resolution) = resolution := by
  apply BitVec.eq_of_toNat_eq
  rw [toNat_resolutionField3, Machine.tagPair_eq_add]
  omega

/-- R48 and R50: the fields written for an instruction select it again. -/
theorem instrOfCmd_cmdOfInstr (i : Instr) : instrOfCmd (cmdOfInstr i) = i := by
  cases i with
  | scDec | rcDec | biCon | reserved2 | reserved3 | reserved7 | reservedB | reservedF => rfl
  | scEnc | rcEnc | rcMul | biDec | biEnc | bdfDec =>
    simp [cmdOfInstr, statusField, resolutionField, rawByte, nibbleField]
  | bdfEnc | bdfCon => simp [cmdOfInstr, nibbleField, statusField_tagPair, resolutionField3_tagPair]

/-- R50: the family `FitsPort` of facts, one a constructor, as one fact. -/
theorem cmdOfInstr_wf {c : Config} {i : Instr} (hw : i.wf c = true) : (cmdOfInstr i).wf c = true := by
  have hfits : Laws.FitsPort.Statement i := by
    cases i with
    | scDec raw => exact Laws.FitsPort.scDec raw
    | scEnc status => exact Laws.FitsPort.scEnc status
    | reserved2 => exact Laws.FitsPort.reserved2
    | reserved3 => exact Laws.FitsPort.reserved3
    | rcDec raw => exact Laws.FitsPort.rcDec raw
    | rcEnc resolution => exact Laws.FitsPort.rcEnc resolution
    | rcMul resolution => exact Laws.FitsPort.rcMul resolution
    | reserved7 => exact Laws.FitsPort.reserved7
    | biDec raw => exact Laws.FitsPort.biDec raw
    | biEnc count identifier => exact Laws.FitsPort.biEnc count identifier
    | biCon count identifier => exact Laws.FitsPort.biCon count identifier
    | reservedB => exact Laws.FitsPort.reservedB
    | bdfDec raw => exact Laws.FitsPort.bdfDec raw
    | bdfEnc coarseVoltage status resolution => exact Laws.FitsPort.bdfEnc coarseVoltage status resolution
    | bdfCon coarseVoltage status resolution => exact Laws.FitsPort.bdfCon coarseVoltage status resolution
    | reservedF => exact Laws.FitsPort.reservedF
  exact hfits c hw

end Sys2Proof

namespace Sys2Proof.Machine

theorem illBit_lt_two (ill : Bool) : illBit ill < 2 := by
  cases ill <;> decide

/-- R46 in nested form: each field is a digit above the one before it. -/
theorem rspWord_eq_nested (c : Config) (r : Rsp) :
    rspWord c r = r.r0 + 2 ^ c.semw * (r.r1 + 2 ^ c.semw * illBit r.ill) := by
  unfold rspWord
  ring

theorem rspWord_lt (c : Config) (r : Rsp) (h0 : r.r0 < 2 ^ c.semw) (h1 : r.r1 < 2 ^ c.semw) :
    rspWord c r < 2 ^ (2 * c.semw + 1) := by
  have hill := illBit_lt_two r.ill
  have hwidth : 2 ^ (2 * c.semw + 1) = 2 ^ c.semw * (2 ^ c.semw * 2) := by ring
  have hdigits {x y n : Nat} (hx : x < 2 ^ c.semw) (hy : y < n) : x + 2 ^ c.semw * y < 2 ^ c.semw * n :=
    calc x + 2 ^ c.semw * y
        < 2 ^ c.semw * (y + 1) := by rw [Nat.mul_succ]; omega
      _ ≤ 2 ^ c.semw * n := Nat.mul_le_mul_left _ hy
  rw [rspWord_eq_nested, hwidth]
  exact hdigits h0 (hdigits h1 hill)

/-- The bit `ill` of a response word is its top digit. -/
theorem illBit_testBit (w n : Nat) : illBit (w.testBit n) = w / 2 ^ n % 2 := by
  rw [Nat.testBit_eq_decide_div_mod_eq]
  rcases Nat.mod_two_eq_zero_or_one (w / 2 ^ n) with h | h <;> simp [h, illBit]

theorem illBit_injective {x y : Bool} (h : illBit x = illBit y) : x = y := by
  revert x y
  decide

theorem rspOfWord_rspWord (c : Config) (r : Rsp) (h0 : r.r0 < 2 ^ c.semw) (h1 : r.r1 < 2 ^ c.semw) :
    rspOfWord c (rspWord c r) = r := by
  have hpos : 0 < 2 ^ c.semw := Nat.two_pow_pos _
  have hdiv : rspWord c r / 2 ^ c.semw = r.r1 + 2 ^ c.semw * illBit r.ill := by
    rw [rspWord_eq_nested, Nat.add_mul_div_left _ _ hpos, Nat.div_eq_of_lt h0, Nat.zero_add]
  have hr0 : (rspOfWord c (rspWord c r)).r0 = r.r0 := by
    simp only [rspOfWord, rspWord_eq_nested, Nat.add_mul_mod_self_left, Nat.mod_eq_of_lt h0]
  have hr1 : (rspOfWord c (rspWord c r)).r1 = r.r1 := by
    simp only [rspOfWord, Nat.shiftRight_eq_div_pow, hdiv, Nat.add_mul_mod_self_left, Nat.mod_eq_of_lt h1]
  have hill : (rspOfWord c (rspWord c r)).ill = r.ill := by
    apply illBit_injective
    rw [rspOfWord, illBit_testBit, show 2 ^ (2 * c.semw) = 2 ^ c.semw * 2 ^ c.semw by ring, ← Nat.div_div_eq_div_mul,
      hdiv, Nat.add_mul_div_left _ _ hpos, Nat.div_eq_of_lt h1, Nat.zero_add, Nat.mod_eq_of_lt (illBit_lt_two _)]
  exact Eq.mpr (Rsp.mk.injEq ..) ⟨hr0, hr1, hill⟩

/-- The converse of `rspOfWord_rspWord`: a response word is the number of its fields. -/
theorem rspWord_rspOfWord (c : Config) {w : Nat} (hw : w < 2 ^ (2 * c.semw + 1)) : rspWord c (rspOfWord c w) = w := by
  have hill : illBit (rspOfWord c w).ill = w / 2 ^ c.semw / 2 ^ c.semw := by
    have hlt : w / 2 ^ (2 * c.semw) < 2 := Nat.div_lt_of_lt_mul (by rwa [← Nat.pow_succ])
    rw [rspOfWord, illBit_testBit, Nat.mod_eq_of_lt hlt, Nat.div_div_eq_div_mul, ← Nat.pow_add, Nat.two_mul]
  rw [rspWord_eq_nested, hill]
  simp only [rspOfWord, Nat.shiftRight_eq_div_pow, Nat.mod_add_div]

end Sys2Proof.Machine
end

section
/-! The statements of 30_encoding.md that speak of the words and the decoder alone. -/

namespace Sys2Proof.Encoding

open Sys2Proof.Machine Sys2Proof.Safety

/-- Settles O3: the word is decoded to the instruction of the fields that the encoder writes, which fit the ports. -/
theorem decodeOfEncodeIsTheInstruction : Obligations.DecodeOfEncodeIsTheInstruction := by
  intro c i hw
  rw [encode, decode_cmdWord c (cmdOfInstr i) (cmdOfInstr_wf hw), instrOfCmd_cmdOfInstr]

/-- Settles O1: the fields are the digits of the word, in both directions. -/
theorem commandWordFieldsRoundTrip : Obligations.CommandWordFieldsRoundTrip := by
  intro c
  refine ⟨fun _ => rfl, fun cmd ha hb => ?_, fun w hw => ?_⟩
  · have hfits := (cmd_wf_iff c cmd).mpr ⟨ha, hb⟩
    exact ⟨cmdWord_lt c cmd hfits, cmdOfWord_cmdWord c cmd hfits⟩
  · obtain ⟨ha, hb⟩ := (cmd_wf_iff c _).mp (cmdOfWord_wf c w)
    exact ⟨ha, hb, cmdWord_cmdOfWord c hw⟩

/-- Settles O2: the fields are the digits of the word, in both directions. -/
theorem responseWordFieldsRoundTrip : Obligations.ResponseWordFieldsRoundTrip := by
  intro c
  refine ⟨fun _ => rfl, fun r h0 h1 => ⟨rspWord_lt c r h0 h1, rspOfWord_rspWord c r h0 h1⟩, fun w hw => ?_⟩
  exact ⟨Nat.mod_lt _ (Nat.two_pow_pos _), Nat.mod_lt _ (Nat.two_pow_pos _), rspWord_rspOfWord c hw⟩

/-- Settles O4: the fields of every word fit the ports, and every instruction puts one response. -/
theorem everyCommandWordDecodesAndAnswers : Obligations.EveryCommandWordDecodesAndAnswers := by
  intro c w
  refine ⟨fun hw => ?_, decode_of_le c⟩
  obtain ⟨r, hx⟩ := exec_putsRsp (instrOfCmd (cmdOfWord c w))
  exact ⟨_, decode_of_lt c hw, instrOfCmd_wf (cmdOfWord_wf c w), fun s => ⟨_, hx s⟩⟩

end Sys2Proof.Encoding
end

section
/-! SUPPORT. The eleven operations as arithmetic (R51, R62 to R84): one lemma for each pure function of files 40 to 42, one
for each instruction, and the operation map `Safety.tableRsp` that they add up to. -/

namespace Sys2Proof.Machine

open Sys2Proof.Safety

/-- R62: the code of a decoded variant is the fallback table's. -/
theorem scEncode_scDecode_toNat (x : Nat) : (scEncode (scDecode x)).toNat = lut x := by
  match x with
  | 0 | 1 | 2 | 3 | 4 | 5 | 6 | 7 => rfl
  | n + 8 => simp [scDecode, scEncode, lut]

theorem scEncode_statusOfTag_toNat (tag : StatusTag) : (scEncode (statusOfTag tag)).toNat = lut tag.toNat :=
  scEncode_scDecode_toNat tag.toNat

theorem lut_lt_eight (x : Nat) : lut x < 8 := by
  unfold lut
  split <;> omega

/-- R66: only 0 is decoded to the first variant. -/
theorem rcEncode_rcDecode_toNat (x : Nat) : (rcEncode (rcDecode x)).toNat = if x = 0 then 0 else 1 := by
  cases x <;> rfl

/-- R27: every one-bit pattern is the tag of the variant that it is read as. -/
theorem rcEncode_resolutionOfTag (tag : ResolutionTag) : rcEncode (resolutionOfTag tag) = tag := by
  revert tag
  decide

/-- R67. -/
theorem rcMultiplier_resolutionOfTag (tag : ResolutionTag) :
    rcMultiplier (resolutionOfTag tag) = if tag.toNat = 0 then 16 else 2 := by
  revert tag
  decide

/-- R10: the clamp saturates. -/
theorem clamp_toNat (x : Nat) : (clamp x).toNat = if x ≤ 15 then x else 15 := by
  rw [clamp, clampBound, BitVec.toNat_ofNat]
  split <;> omega

/-- The low nibble of a byte, a `count` or a `coarseVoltage` (R73, R81). -/
theorem lowNibble_toNat (raw : Byte) : (BitVec.ofNat 4 (raw.toNat &&& 0x0F)).toNat = raw.toNat % 16 := by
  rw [BitVec.toNat_ofNat, Nat.and_two_pow_sub_one_eq_mod _ 4]
  omega

/-- R73: the high nibble of a byte. -/
theorem biDecode_identifier (raw : Byte) : (biDecode raw).identifier = raw.toNat / 16 % 16 := by
  rw [biDecode, Nat.shiftRight_eq_div_pow]
  exact Nat.and_two_pow_sub_one_eq_mod _ 4

/-- R76 and R10: the two nibbles, the higher bits of `identifier` lost. -/
theorem biEncode_toNat (count : Nibble) (identifier : Nat) :
    (biEncode ⟨count, identifier⟩).toNat = count.toNat + 16 * (identifier % 16) := by
  rw [biEncode, trunc8, BitVec.toNat_ofNat, Nat.lor_comm, ← Nat.shiftLeft_add_eq_or_of_lt count.isLt,
    Nat.shiftLeft_eq]
  show (identifier * 2 ^ 4 + count.toNat) % 2 ^ 8 = _
  omega

/-- R81: bits 6:4 of the byte, read through the validator. -/
theorem scEncode_bdfDecode_status (raw : Byte) :
    (scEncode (bdfDecode raw).status).toNat = lut (raw.toNat / 16 % 8) := by
  rw [bdfDecode, scEncode_scDecode_toNat, Nat.shiftRight_eq_div_pow]
  exact congrArg lut (Nat.and_two_pow_sub_one_eq_mod _ 3)

/-- R81: bit 7 of the byte. -/
theorem rcEncode_bdfDecode_resolution (raw : Byte) :
    (rcEncode (bdfDecode raw).resolution).toNat = raw.toNat / 128 % 2 := by
  have hbit : (raw.toNat >>> 7) &&& 0x01 = raw.toNat / 128 % 2 := by
    rw [Nat.shiftRight_eq_div_pow]
    exact Nat.and_two_pow_sub_one_eq_mod _ 1
  rw [bdfDecode, rcEncode_rcDecode_toNat, hbit]
  split <;> omega

/-- R85: the three fields fill the byte exactly. -/
theorem bdfEncode_toNat (v : BatteryDescriptiveField) :
    (bdfEncode v).toNat = v.coarseVoltage.toNat + 16 * (scEncode v.status).toNat + 128 * (rcEncode v.resolution).toNat := by
  rw [bdfEncode, BitVec.toNat_ofNat, bdfOr_eq_add]
  omega

/-- R64. -/
theorem exec_scDec (raw : Nat) (s : State) : exec (.scDec raw) s = .next (putRsp ⟨lut raw, 0, false⟩ s) := by
  rw [← scEncode_scDecode_toNat]
  rfl

/-- R65. -/
theorem exec_scEnc (status : StatusTag) (s : State) :
    exec (.scEnc status) s = .next (putRsp ⟨lut status.toNat, 0, false⟩ s) := by
  rw [← scEncode_statusOfTag_toNat]
  rfl

/-- R68. -/
theorem exec_rcDec (raw : Nat) (s : State) :
    exec (.rcDec raw) s = .next (putRsp ⟨if raw = 0 then 0 else 1, 0, false⟩ s) := by
  rw [← rcEncode_rcDecode_toNat]
  rfl

/-- R69. -/
theorem exec_rcEnc (resolution : ResolutionTag) (s : State) :
    exec (.rcEnc resolution) s = .next (putRsp ⟨resolution.toNat, 0, false⟩ s) := by
  show answer (rcEncode (resolutionOfTag resolution)).toNat 0 s = _
  rw [rcEncode_resolutionOfTag, answer_eq]

/-- R70. -/
theorem exec_rcMul (resolution : ResolutionTag) (s : State) :
    exec (.rcMul resolution) s = .next (putRsp ⟨if resolution.toNat = 0 then 16 else 2, 0, false⟩ s) := by
  rw [← rcMultiplier_resolutionOfTag]
  rfl

/-- R73. -/
theorem exec_biDec (raw : Byte) (s : State) :
    exec (.biDec raw) s = .next (putRsp ⟨raw.toNat % 16, raw.toNat / 16 % 16, false⟩ s) := by
  rw [← lowNibble_toNat, ← biDecode_identifier]
  rfl

/-- R76. -/
theorem exec_biEnc (count : Nibble) (identifier : Nat) (s : State) :
    exec (.biEnc count identifier) s = .next (putRsp ⟨count.toNat + 16 * (identifier % 16), 0, false⟩ s) := by
  rw [← biEncode_toNat]
  rfl

/-- R75. -/
theorem exec_biCon (count identifier : Nat) (s : State) :
    exec (.biCon count identifier) s = .next (putRsp ⟨if count ≤ 15 then count else 15, identifier, false⟩ s) := by
  rw [← clamp_toNat]
  rfl

/-- R81. -/
theorem exec_bdfDec (raw : Byte) (s : State) :
    exec (.bdfDec raw) s =
      .next (putRsp ⟨raw.toNat % 16, lut (raw.toNat / 16 % 8) + 8 * (raw.toNat / 128 % 2), false⟩ s) := by
  rw [← lowNibble_toNat, ← scEncode_bdfDecode_status, ← rcEncode_bdfDecode_resolution, ← tagPair_eq_add]
  rfl

/-- R84. -/
theorem exec_bdfEnc (coarseVoltage : Nibble) (status : StatusTag) (resolution : ResolutionTag) (s : State) :
    exec (.bdfEnc coarseVoltage status resolution) s =
      .next (putRsp ⟨coarseVoltage.toNat + 16 * lut status.toNat + 128 * resolution.toNat, 0, false⟩ s) := by
  show answer (bdfEncode ⟨coarseVoltage, statusOfTag status, resolutionOfTag resolution⟩).toNat 0 s = _
  rw [bdfEncode_toNat, scEncode_statusOfTag_toNat, rcEncode_resolutionOfTag, answer_eq]

/-- R83. -/
theorem exec_bdfCon (coarseVoltage : Nat) (status : StatusTag) (resolution : ResolutionTag) (s : State) :
    exec (.bdfCon coarseVoltage status resolution) s = .next (putRsp
      ⟨if coarseVoltage ≤ 15 then coarseVoltage else 15, lut status.toNat + 8 * resolution.toNat, false⟩ s) := by
  show answerDescriptive ⟨clamp coarseVoltage, statusOfTag status, resolutionOfTag resolution⟩ s = _
  rw [answerDescriptive_eq, clamp_toNat, tagPair_eq_add, scEncode_statusOfTag_toNat, rcEncode_resolutionOfTag]

/-- The operation map: what the operation that a command selects puts on `rsp`, as arithmetic on the three fields (R47,
R48, R50, R51, R89). -/
theorem exec_instrOfCmd (cmd : Cmd) (s : State) :
    exec (instrOfCmd cmd) s = .next (putRsp (tableRsp cmd.op.toNat cmd.a cmd.b) s) := by
  obtain ⟨op, a, b⟩ := cmd
  have hlow : a % 256 % 16 = a % 16 := by omega
  have hhigh : a % 256 / 16 % 16 = a / 16 % 16 := by omega
  have hstatus : a % 256 / 16 % 8 = a / 16 % 8 := by omega
  have hresolution : a % 256 / 128 % 2 = a / 128 % 2 := by omega
  rcases opSel_cases op with
    rfl | rfl | rfl | rfl | rfl | rfl | rfl | rfl | rfl | rfl | rfl | rfl | rfl | rfl | rfl | rfl
  · exact exec_scDec a s
  · rw [instrOfCmd_op1, exec_scEnc, toNat_statusField]; rfl
  · exact raiseIll_eq s
  · exact raiseIll_eq s
  · exact exec_rcDec a s
  · rw [instrOfCmd_op5, exec_rcEnc, toNat_resolutionField]; rfl
  · rw [instrOfCmd_op6, exec_rcMul, toNat_resolutionField]; rfl
  · exact raiseIll_eq s
  · rw [instrOfCmd_op8, exec_biDec, toNat_rawByte, hlow, hhigh]; rfl
  · rw [instrOfCmd_op9, exec_biEnc, toNat_nibbleField]; rfl
  · exact exec_biCon a b s
  · exact raiseIll_eq s
  · rw [instrOfCmd_opC, exec_bdfDec, toNat_rawByte, hlow, hstatus, hresolution]; rfl
  · rw [instrOfCmd_opD, exec_bdfEnc, toNat_nibbleField, toNat_statusField, toNat_resolutionField3]; rfl
  · rw [instrOfCmd_opE, exec_bdfCon, toNat_statusField, toNat_resolutionField3]; rfl
  · exact raiseIll_eq s

/-- R47: a command has exactly the response that the operation map gives it. -/
theorem answers_iff (cmd : Cmd) (r : Rsp) : answers cmd r ↔ r = tableRsp cmd.op.toNat cmd.a cmd.b := by
  constructor
  · exact fun hr => rsp_eq_of_answers hr (exec_instrOfCmd cmd)
  · rintro rfl s
    exact ⟨_, exec_instrOfCmd cmd s, rfl⟩

end Sys2Proof.Machine
end

section
/-! SUPPORT. Facts about the operation map: the reserved codes (R54, R89), their number among the command words, and the
bytes whose status bits are `110`. -/

namespace Sys2Proof.Safety

/-- R89: the response to a command that selects no operation. -/
theorem tableRsp_of_isReserved {op : Nat} (h : isReserved op = true) (a b : Nat) : tableRsp op a b = ⟨0, 0, true⟩ := by
  simp only [isReserved, Bool.or_eq_true, beq_iff_eq] at h
  rcases h with (((rfl | rfl) | rfl) | rfl) | rfl <;> rfl

theorem isReserved_iff (op : Nat) : isReserved op = true ↔ op ∈ [0x2, 0x3, 0x7, 0xB, 0xF] := by
  simp [isReserved, or_assoc]

/-- R54: five of every sixteen numbers have a reserved code in their low four bits. -/
theorem count_reserved (n : Nat) : Nat.count (fun w => w % 16 ∈ [0x2, 0x3, 0x7, 0xB, 0xF]) (16 * n) = 5 * n := by
  induction n with
  | zero => rfl
  | succ n ih =>
    have hperiod : Nat.count (fun w => (16 * n + w) % 16 ∈ [0x2, 0x3, 0x7, 0xB, 0xF]) 16 = 5 := by
      simp only [Nat.mul_add_mod]
      rfl
    rw [Nat.mul_succ, Nat.count_add, ih, hperiod, Nat.mul_succ]

/-- R62: of the eight status tags the fallback table changes one, `110`. -/
theorem lut_of_lt_eight {x : Nat} (h : x < 8) : lut x = if x = 6 then 7 else x := by
  unfold lut
  split <;> split <;> omega

/-- R63: what the fallback table gives is a code of a variant, which it leaves alone. -/
theorem lut_lut (x : Nat) : lut (lut x) = lut x := by
  have hx : lut x ≤ 5 ∨ lut x = 7 := by
    unfold lut
    split <;> omega
  exact if_pos hx

/-- R60: the response of `BDF.DEC` as operands of `BDF.ENC`, with the tags of R51 read back by R50. -/
theorem tableRsp_bdfEnc_of_bdfDec (a b : Nat) :
    tableRsp 13 (tableRsp 12 a b).r0 (tableRsp 12 a b).r1 =
      ⟨a % 16 + 16 * lut (a / 16 % 8) + 128 * (a / 128 % 2), 0, false⟩ := by
  have hlt := Machine.lut_lt_eight (a / 16 % 8)
  have hstatus : (lut (a / 16 % 8) + 8 * (a / 128 % 2)) % 8 = lut (a / 16 % 8) := by omega
  have hresolution : (lut (a / 16 % 8) + 8 * (a / 128 % 2)) / 8 % 2 = a / 128 % 2 := by omega
  simp only [tableRsp, tableR0, tableR1, hstatus, hresolution, lut_lut, Nat.mod_mod]
  rfl

/-- Setting a bit that is clear adds it: bit 4 is the low one of the status bits `110` (R87). -/
theorem or_sixteen_of_status_six {x : Nat} (h : x / 16 % 8 = 6) : x ||| 0x10 = x + 0x10 := by
  have hlow : x % 32 < 2 ^ 4 := by omega
  have hsum : x % 32 + 2 ^ 4 < 2 ^ 5 := by omega
  calc x ||| 2 ^ 4
      = 2 ^ 5 * (x / 32) ||| x % 32 ||| 2 ^ 4 := by
        rw [← Nat.two_pow_add_eq_or_of_lt (Nat.mod_lt x (by decide)), Nat.div_add_mod]
    _ = 2 ^ 5 * (x / 32) + (x % 32 + 2 ^ 4) := by
        rw [Nat.or_assoc, Nat.or_two_pow_eq_add_of_lt hlow, Nat.two_pow_add_eq_or_of_lt hsum]
    _ = x + 2 ^ 4 := by omega

end Sys2Proof.Safety
end

section
/-! The statements of 30_encoding.md that speak of the operation map: which bits are read and written, and the responses. -/

namespace Sys2Proof.Encoding

open Sys2Proof.Machine Sys2Proof.Safety

/-- Settles O10: `exec_instrOfCmd` at the fields of the word. -/
theorem everyCommandWordMatchesTheOperationMap : Obligations.EveryCommandWordMatchesTheOperationMap := by
  intro c w hw
  refine ⟨_, decode_of_lt c hw, fun s => ?_⟩
  rw [exec_instrOfCmd, cmdOfWord_op_toNat, cmdOfWord_a, cmdOfWord_b c hw, responded_eq_putRsp]

/-- Settles O7: the operation map raises `ill` for the reserved codes alone, and every sixteen words hold five of them. -/
theorem exactlyTheReservedCodesAreIllegal : Obligations.ExactlyTheReservedCodesAreIllegal := by
  intro c
  refine ⟨fun w _ => ⟨_, (answers_iff _ _).mpr rfl, ?_, fun hill => tableRsp_of_isReserved hill _ _⟩, ?_⟩
  · rw [← cmdOfWord_op_toNat c w]
    exact isReserved_iff _
  · rw [← Nat.count_eq_card_filter_range, show 2 ^ (2 * c.semw + 4) = 16 * 2 ^ (2 * c.semw) by ring]
    exact count_reserved _

/-- Settles O5: an operand field is determined by the bits of it that R50 lists. -/
theorem unreadOperandBitsAreIgnored : Obligations.UnreadOperandBitsAreIgnored := by
  intro a b a' b'
  have status {v v' : Nat} (h : v % 8 = v' % 8) : statusField v = statusField v' :=
    BitVec.eq_of_toNat_eq (by simpa using h)
  have resolution {v v' : Nat} (h : v % 2 = v' % 2) : resolutionField v = resolutionField v' :=
    BitVec.eq_of_toNat_eq (by simpa using h)
  have nibble {v v' : Nat} (h : v % 16 = v' % 16) : nibbleField v = nibbleField v' :=
    BitVec.eq_of_toNat_eq (by simpa using h)
  have byte {v v' : Nat} (h : v % 256 = v' % 256) : rawByte v = rawByte v' :=
    BitVec.eq_of_toNat_eq (by simpa using h)
  have tags {v v' : Nat} (h : v % 16 = v' % 16) :
      statusField v = statusField v' ∧ resolutionField3 v = resolutionField3 v' :=
    ⟨status (by omega), BitVec.eq_of_toNat_eq (by simp only [toNat_resolutionField3]; omega)⟩
  refine ⟨rfl, fun ha => ?_, rfl, fun ha => ?_, fun ha => ?_, fun ha => ?_, fun ha => ?_, fun ha => ?_,
    fun ha hb => ?_, fun hb => ?_, rfl, rfl, rfl, rfl, rfl⟩
  · exact congrArg Instr.scEnc (status ha)
  · exact congrArg Instr.rcEnc (resolution ha)
  · exact congrArg Instr.rcMul (resolution ha)
  · exact congrArg Instr.biDec (byte ha)
  · exact congrArg (Instr.biEnc · b) (nibble ha)
  · exact congrArg Instr.bdfDec (byte ha)
  · obtain ⟨hstatus, hresolution⟩ := tags hb
    rw [instrOfCmd_opD, instrOfCmd_opD, nibble ha, hstatus, hresolution]
  · obtain ⟨hstatus, hresolution⟩ := tags hb
    rw [instrOfCmd_opE, instrOfCmd_opE, hstatus, hresolution]

/-- Settles O6: the bounds of the operation map's results, of which a status code is below 8. -/
theorem unwrittenResultBitsAreZero : Obligations.UnwrittenResultBitsAreZero := by
  rintro ⟨op, a, b⟩ r hr
  obtain rfl := (answers_iff _ _).mp hr
  have hclamp : (if a ≤ 15 then a else 15) < 16 := by split <;> omega
  refine ⟨?_, ?_, ?_, ?_, ?_, ?_, ?_⟩
  · rintro (rfl | rfl)
    · exact ⟨lut_lt_eight a, rfl⟩
    · exact ⟨lut_lt_eight (a % 8), rfl⟩
  · rintro (rfl | rfl)
    · exact ⟨show (if a = 0 then 0 else 1) < 2 by split <;> omega, rfl⟩
    · exact ⟨Nat.mod_lt a (by decide), rfl⟩
  · rintro rfl
    exact ⟨show (if a % 2 = 0 then 16 else 2) < 32 by split <;> omega, rfl⟩
  · rintro rfl
    exact ⟨Nat.mod_lt a (by decide), Nat.mod_lt (a / 16) (by decide)⟩
  · rintro rfl
    exact hclamp
  · have hstatus := lut_lt_eight (b % 8)
    rintro (rfl | rfl)
    · exact ⟨show a % 16 + 16 * (b % 16) < 256 by omega, rfl⟩
    · exact ⟨show a % 16 + 16 * lut (b % 8) + 128 * (b / 8 % 2) < 256 by omega, rfl⟩
  · have hstatus := lut_lt_eight (a / 16 % 8)
    have hstatus' := lut_lt_eight (b % 8)
    rintro (rfl | rfl)
    · exact ⟨Nat.mod_lt a (by decide), show lut (a / 16 % 8) + 8 * (a / 128 % 2) < 16 by omega⟩
    · exact ⟨hclamp, show lut (b % 8) + 8 * (b / 8 % 2) < 16 by omega⟩

/-- Settles O34: the two nibbles of the byte, put together again. -/
theorem identifierByteReencodes : Obligations.IdentifierByteReencodes := by
  intro a b
  refine ⟨_, (answers_iff _ _).mpr rfl, (answers_iff _ _).mpr ?_⟩
  have hbyte : a % 256 = a % 16 % 16 + 16 * (a / 16 % 16 % 16) := by omega
  rw [hbyte]
  rfl

/-- Settles O35: the fallback table is the identity on the status bits but for `110`, to which it adds one. -/
theorem descriptiveByteReencodesButForSix : Obligations.DescriptiveByteReencodesButForSix := by
  refine ⟨fun a b => ⟨_, (answers_iff _ _).mpr rfl, (answers_iff _ _).mpr ?_⟩, fun x hx => ?_, by decide⟩
  · refine Eq.trans ?_ (tableRsp_bdfEnc_of_bdfDec a b).symm
    rw [lut_of_lt_eight (Nat.mod_lt _ (by decide)), Rsp.mk.injEq]
    refine ⟨?_, rfl, rfl⟩
    split
    · next hsix =>
      rw [or_sixteen_of_status_six (show a % 256 / 16 % 8 = 6 by omega)]
      omega
    · omega
  · have hx' : x % 256 / 16 % 8 = 6 := by omega
    rw [or_sixteen_of_status_six hx']
    omega

end Sys2Proof.Encoding
end

section
/-! SUPPORT. A form presented, answered and sampled (R57): the values of its operands, and what its temporaries hold after
the step. -/

namespace Sys2Proof.Machine

open Sys2Proof.Safety

theorem cmd_wf_of_lt {c : Config} {op : OpSel} {a b : Nat} (ha : a < 2 ^ c.semw) (hb : b < 2 ^ c.semw) :
    Cmd.wf c ⟨op, a, b⟩ = true :=
  (cmd_wf_iff c _).mpr ⟨ha, hb⟩

/-- An operand made of one source, moved to the right by the host. -/
theorem operandValue_shifted {temps : List (Nat × Nat)} {src : Source} {v : Nat} (h : sourceValue temps src = .ok v)
    (n : Nat) : operandValue temps [⟨src, n, 0⟩] = .ok (v / 2 ^ n) := by
  simp [operandValue, termValue, h, Nat.shiftRight_eq_div_pow]

theorem operandValue_whole {temps : List (Nat × Nat)} {src : Source} {v : Nat} (h : sourceValue temps src = .ok v) :
    operandValue temps (whole src) = .ok v := by
  rw [whole, operandValue_shifted h, Nat.pow_zero, Nat.div_one]

/-- R57: the resolution tag stands in `b[3]`. -/
theorem operandValue_tagTerms {temps : List (Nat × Nat)} {st re : Source} {status resolution : Nat}
    (hst : sourceValue temps st = .ok status) (hre : sourceValue temps re = .ok resolution) :
    operandValue temps (tagTerms st re) = .ok (status ||| resolution <<< 3) := by
  simp [tagTerms, operandValue, termValue, hst, hre]

/-- R57: a status tag does not reach into the resolution's bit. -/
theorem operandValue_tagTerms_of_lt {temps : List (Nat × Nat)} {st re : Source} {status resolution : Nat}
    (hst : sourceValue temps st = .ok status) (hre : sourceValue temps re = .ok resolution) (hlt : status < 8) :
    operandValue temps (tagTerms st re) = .ok (status + 8 * resolution) := by
  have hsum : status ||| resolution <<< 3 = status + 8 * resolution := by
    rw [Nat.lor_comm, ← Nat.shiftLeft_add_eq_or_of_lt (i := 3) hlt, Nat.shiftLeft_eq]
    omega
  rw [operandValue_tagTerms hst hre, hsum]

theorem tags_lt_two_pow (c : Config) {status resolution : Nat} (hst : status < 8) (hre : resolution < 2) :
    status + 8 * resolution < 2 ^ c.semw := by
  simpa [Config.fits] using Laws.fits_of_lt_256 c (show status + 8 * resolution < 256 by omega)

/-- R51: the status tag of a response that carries two tags. -/
theorem fieldValue_r1Status (c : Config) (r0 : Nat) {status : Nat} (hst : status < 8) (resolution : Nat) (ill : Bool) :
    fieldValue c ⟨r0, status + 8 * resolution, ill⟩ .r1Status = status := by
  show (status + 8 * resolution) % 8 = status
  omega

/-- R51: the resolution tag of a response that carries two tags. -/
theorem fieldValue_r1Resolution (c : Config) (r0 : Nat) {status resolution : Nat} (hst : status < 8)
    (hre : resolution < 2) (ill : Bool) :
    fieldValue c ⟨r0, status + 8 * resolution, ill⟩ .r1Resolution = resolution := by
  show (status + 8 * resolution) >>> 3 % 2 = resolution
  rw [Nat.shiftRight_eq_div_pow]
  omega

/-- Where no temporary is named twice, each holds the field that it samples. -/
theorem readTemp_sampleTemps_of_nodup (c : Config) (r : Rsp) {dests : List (Nat × RspField)} (temps : List (Nat × Nat))
    (hnodup : (dests.map Prod.fst).Nodup) {d : Nat × RspField} (hd : d ∈ dests) :
    readTemp (sampleTemps c r temps dests) d.1 = some (fieldValue c r d.2) := by
  obtain ⟨ds, ds', rfl⟩ := List.append_of_mem hd
  rw [List.map_append, List.map_cons, List.nodup_middle, List.nodup_cons] at hnodup
  obtain ⟨hnot, -⟩ := hnodup
  exact readTemp_sampleTemps_named c r ds ds' temps d.1 d.2 fun hmem => hnot (List.mem_append_right _ hmem)

/-- What the temporaries of a command hold after its response: each the field that it samples (R31, R57). -/
def sampled (c : Config) (r : Rsp) (dests : List (Nat × RspField)) : List (Nat × Nat) :=
  dests.map fun d => (d.1, fieldValue c r d.2)

/-- R57: a command that selects an operation, with readable operands that fit the port and distinct temporaries, is
answered as the operation map says, and its temporaries hold the fields of that response. -/
theorem yields_sampled {s : State} {h : HostCmd} {a b : Nat} (ha : operandValue s.temps h.a = .ok a)
    (hb : operandValue s.temps h.b = .ok b) (hw : Cmd.wf s.cfg ⟨h.op, a, b⟩ = true)
    (hop : isReserved h.op.toNat = false) (hnodup : (h.dests.map Prod.fst).Nodup) :
    yields s h (sampled s.cfg (tableRsp h.op.toNat a b) h.dests) := by
  refine ⟨_, step_of_operands (s := { s with pending := h :: s.pending }) rfl ha hb hw (exec_instrOfCmd _), hop, ?_⟩
  intro p hp
  obtain ⟨d, hd, rfl⟩ := List.mem_map.mp hp
  exact readTemp_sampleTemps_of_nodup s.cfg _ s.temps hnodup hd

/-- R51: a descriptive response sampled into three temporaries. -/
theorem sampled_descriptive (c : Config) (r0 : Nat) {status resolution : Nat} (hst : status < 8) (hre : resolution < 2)
    (t u r : Nat) :
    sampled c ⟨r0, status + 8 * resolution, false⟩ [(t, .r0), (u, .r1Status), (r, .r1Resolution)] =
      [(t, r0), (u, status), (r, resolution)] := by
  simp only [sampled, List.map_cons, List.map_nil, fieldValue_r1Status c r0 hst, fieldValue_r1Resolution c r0 hst hre]
  rfl

/-- R83 and R84 with the operand `b` of R57: the two tags are read as they were put. -/
theorem tableRsp_bdfEnc_tags (a : Nat) {status resolution : Nat} (hst : status < 8) (hre : resolution < 2) :
    tableRsp 13 a (status + 8 * resolution) = ⟨a % 16 + 16 * lut status + 128 * resolution, 0, false⟩ := by
  have hstatus : (status + 8 * resolution) % 8 = status := by omega
  have hresolution : (status + 8 * resolution) / 8 % 2 = resolution := by omega
  simp only [tableRsp, tableR0, hstatus, hresolution]
  rfl

theorem tableRsp_bdfCon_tags (a : Nat) {status resolution : Nat} (hst : status < 8) (hre : resolution < 2) :
    tableRsp 14 a (status + 8 * resolution) =
      ⟨if a ≤ 15 then a else 15, lut status + 8 * resolution, false⟩ := by
  have hstatus : (status + 8 * resolution) % 8 = status := by omega
  have hresolution : (status + 8 * resolution) / 8 % 2 = resolution := by omega
  simp only [tableRsp, tableR1, hstatus, hresolution]
  rfl

end Sys2Proof.Machine
end

section
/-! The statements of 30_encoding.md that speak of the host's commands: what a temporary samples, and the one-line forms. -/

namespace Sys2Proof.Encoding

open Sys2Proof.Machine Sys2Proof.Safety

/-- Settles O43: the last naming of a temporary decides it; `>>> 3` is the division by 8. -/
theorem sampledTemporaryHoldsItsField : Obligations.SampledTemporaryHoldsItsField := by
  intro s t h rest ds ds' u field hp hdests hlast hst
  obtain ⟨hcfg, -⟩ := StateOfRun.stepFrame s t h rest hp hst
  have hread : readTemp t.temps u = some (fieldValue t.cfg t.rsp field) := by
    rw [step_temps hp hst, hdests, hcfg]
    exact readTemp_sampleTemps_named s.cfg t.rsp ds ds' s.temps u field hlast
  rw [hread]
  refine ⟨?_, ?_, ?_, ?_, ?_, ?_⟩ <;> rintro rfl
  case refine_4 => rw [fieldValue, Nat.shiftRight_eq_div_pow]
  all_goals rfl

/-- Settles O49: an operand is its source's value, and the two tags do not overlap. -/
theorem formsWriteTheirFields : Obligations.FormsWriteTheirFields := by
  intro s t u r x y st re a b status resolution hx hy hst hre ha hb hstatus hresolution
  have hzero : 0 < 2 ^ s.cfg.semw := Nat.two_pow_pos _
  have htags := tags_lt_two_pow s.cfg hstatus hresolution
  have opA := operandValue_whole hx
  have opB := operandValue_whole hy
  have opTags := operandValue_tagTerms_of_lt hst hre hstatus
  exact ⟨present_of_operands opA rfl (cmd_wf_of_lt ha hzero), present_of_operands opA rfl (cmd_wf_of_lt ha hzero),
    present_of_operands opA rfl (cmd_wf_of_lt ha hzero), present_of_operands opA rfl (cmd_wf_of_lt ha hzero),
    present_of_operands opA rfl (cmd_wf_of_lt ha hzero), present_of_operands opA rfl (cmd_wf_of_lt ha hzero),
    present_of_operands opA opB (cmd_wf_of_lt ha hb), present_of_operands opA opB (cmd_wf_of_lt ha hb),
    present_of_operands opA rfl (cmd_wf_of_lt ha hzero), present_of_operands opA opTags (cmd_wf_of_lt ha htags),
    present_of_operands opA opTags (cmd_wf_of_lt ha htags)⟩

/-- Settles O51: the forms' operands as in O49, their responses from the operation map, and the fields their temporaries
sample. -/
theorem formsSampleTheirResults : Obligations.FormsSampleTheirResults := by
  intro s t u r x y st re a b status resolution htu htr hur hx hy hst hre ha hb hstatus hresolution
  have hzero : 0 < 2 ^ s.cfg.semw := Nat.two_pow_pos _
  have htags := tags_lt_two_pow s.cfg hstatus hresolution
  have opA := operandValue_whole hx
  have opB := operandValue_whole hy
  have opTags := operandValue_tagTerms_of_lt hst hre hstatus
  have one : [t].Nodup := List.nodup_singleton t
  have two : [t, u].Nodup := by simp [htu]
  have three : [t, u, r].Nodup := by simp [htu, htr, hur]
  refine ⟨yields_sampled opA rfl (cmd_wf_of_lt ha hzero) rfl one, yields_sampled opA rfl (cmd_wf_of_lt ha hzero) rfl one,
    yields_sampled opA rfl (cmd_wf_of_lt ha hzero) rfl one, yields_sampled opA rfl (cmd_wf_of_lt ha hzero) rfl one,
    yields_sampled opA rfl (cmd_wf_of_lt ha hzero) rfl one, yields_sampled opA rfl (cmd_wf_of_lt ha hzero) rfl two,
    yields_sampled opA opB (cmd_wf_of_lt ha hb) rfl one, yields_sampled opA opB (cmd_wf_of_lt ha hb) rfl two, ?_, ?_, ?_⟩
  · rw [← sampled_descriptive s.cfg (a % 16) (lut_lt_eight (a / 16 % 8)) (Nat.mod_lt (a / 128) (by decide))]
    exact yields_sampled opA rfl (cmd_wf_of_lt ha hzero) rfl three
  · have hyields := yields_sampled (h := formBdfEnc t x st re) opA opTags (cmd_wf_of_lt ha htags) rfl one
    rwa [show (formBdfEnc t x st re).op.toNat = 13 from rfl, tableRsp_bdfEnc_tags a hstatus hresolution] at hyields
  · have hyields := yields_sampled (h := formBdfCon t u r x st re) opA opTags (cmd_wf_of_lt ha htags) rfl three
    rw [show (formBdfCon t u r x st re).op.toNat = 14 from rfl, tableRsp_bdfCon_tags a hstatus hresolution] at hyields
    rwa [← sampled_descriptive s.cfg _ (lut_lt_eight status) hresolution]

/-- Settles O52: both tags in one source are `b` as they are, and the host's shift by 3 leaves the resolution tag. -/
theorem pairedTagsChain : Obligations.PairedTagsChain := by
  intro s t u x y st re a b status resolution htu hx hy hst hre ha hb hstatus hresolution
  have hzero : 0 < 2 ^ s.cfg.semw := Nat.two_pow_pos _
  have htags := tags_lt_two_pow s.cfg hstatus hresolution
  have hshifted : b / 8 < 2 ^ s.cfg.semw := lt_of_le_of_lt (Nat.div_le_self b 8) hb
  have opA := operandValue_whole hx
  have opB := operandValue_whole hy
  have opTags := operandValue_tagTerms_of_lt hst hre hstatus
  have opShifted := operandValue_shifted hy 3
  have opZeroResolution : operandValue s.temps (tagTerms y (.lit 0)) = .ok b := by
    rw [operandValue_tagTerms hy rfl, Nat.zero_shiftLeft, Nat.or_zero]
  have one : [t].Nodup := List.nodup_singleton t
  have two : [t, u].Nodup := by simp [htu]
  refine ⟨yields_sampled opA rfl (cmd_wf_of_lt ha hzero) rfl two, ?_, present_of_operands opA opB (cmd_wf_of_lt ha hb),
    present_of_operands opA opZeroResolution (cmd_wf_of_lt ha hb), yields_sampled opA opB (cmd_wf_of_lt ha hb) rfl one,
    present_of_operands opShifted rfl (cmd_wf_of_lt hshifted hzero),
    yields_sampled opShifted rfl (cmd_wf_of_lt hshifted hzero) rfl one⟩
  have hyields := yields_sampled (h := formBdfConPair t u x st re) opA opTags (cmd_wf_of_lt ha htags) rfl two
  rwa [show (formBdfConPair t u x st re).op.toNat = 14 from rfl, tableRsp_bdfCon_tags a hstatus hresolution] at hyields

end Sys2Proof.Encoding
end

section
/-! SUPPORT. The enumeration validators and their names (R62 to R71): the codes of the fallback table, the inverse laws, the
names as functions of the tag; and the response of an operation as a change of the port `rsp` alone (R51, R90). -/

namespace Sys2Proof.Machine

open Sys2Proof.Safety

theorem mem_statusCodes_iff (x : Nat) : x ∈ [0, 1, 2, 3, 4, 5, 7] ↔ x ≤ 5 ∨ x = 7 := by
  simp only [List.mem_cons, List.not_mem_nil, or_false]
  omega

/-- R62: the fallback table in the words of the rule. -/
theorem lut_eq_ite_mem (x : Nat) : lut x = if x ∈ [0, 1, 2, 3, 4, 5, 7] then x else 7 := by
  simp only [lut, mem_statusCodes_iff]

/-- R63: the numbers that the fallback table leaves alone are the seven codes. -/
theorem lut_eq_self_iff (x : Nat) : lut x = x ↔ x ∈ [0, 1, 2, 3, 4, 5, 7] := by
  rw [mem_statusCodes_iff, lut]
  split <;> omega

/-- R27 and D11: on tags the fallback table changes `110` alone. -/
theorem lut_toNat_statusTag (tag : StatusTag) : lut tag.toNat = if tag = 6#3 then 7 else tag.toNat := by
  have hsix : tag = 6#3 ↔ tag.toNat = 6 := BitVec.toNat_inj.symm
  simp only [lut_of_lt_eight tag.isLt, hsix]

/-- R63: the inverse law on variants. -/
theorem scDecode_scEncode (v : StatusCode) : scDecode (scEncode v).toNat = v := by
  cases v <;> rfl

/-- R63: the inverse law from the number's side: decode sees only what the fallback table makes of a number. -/
theorem scDecode_eq_scDecode_lut (x : Nat) : scDecode x = scDecode (lut x) := by
  rw [← scEncode_scDecode_toNat, scDecode_scEncode]

theorem scEncode_injective : Function.Injective scEncode :=
  Function.LeftInverse.injective (g := statusOfTag) scDecode_scEncode

theorem rcDecode_rcEncode (v : ResolutionCode) : rcDecode (rcEncode v).toNat = v := by
  cases v <;> rfl

theorem rcEncode_injective : Function.Injective rcEncode :=
  Function.LeftInverse.injective (g := resolutionOfTag) rcDecode_rcEncode

/-- R71: the tag 6 is the only one without a name. -/
theorem statusTagName_isSome_iff (tag : StatusTag) : (statusTagName tag).isSome = true ↔ tag ≠ 6#3 := by
  revert tag
  decide

theorem statusTagName_injective : Function.Injective statusTagName := by
  unfold Function.Injective
  decide

theorem resolutionTagName_isSome (tag : ResolutionTag) : (resolutionTagName tag).isSome = true := by
  revert tag
  decide

theorem resolutionTagName_injective : Function.Injective resolutionTagName := by
  unfold Function.Injective
  decide

/-- R51 and R90: the response of an operation leaves the model's mark as it stands. -/
theorem putRsp_of_ill_clear (r0 r1 : Nat) (s : State) :
    putRsp ⟨r0, r1, false⟩ s = { s with rsp := ⟨r0, r1, false⟩ } := by
  rw [putRsp, markAfter, Bool.or_false]

end Sys2Proof.Machine
end

section
/-! The statements of 40_enum_validators.md. -/

namespace Sys2Proof.EnumValidators

open Sys2Proof.Machine Sys2Proof.Safety

/-- Settles O12: encode after decode is the fallback table, whose fixed points are the seven codes. -/
theorem statusEncodeInvertsDecode : Obligations.StatusEncodeInvertsDecode := by
  refine ⟨⟨rfl, rfl, rfl, rfl, rfl, rfl, rfl⟩, fun v => ⟨fun h => ?_, scDecode_scEncode v⟩, fun x => ?_, rfl⟩
  · exact scEncode_ne_six v (congrArg BitVec.toNat h)
  · rw [scEncode_scDecode_toNat]
    exact lut_eq_self_iff x

/-- Settles O13: encode after decode is 0 for 0 and 1 for every other number. -/
theorem resolutionFunctions : Obligations.ResolutionFunctions := by
  refine ⟨fun x => ?_, ⟨rfl, rfl⟩, ⟨rfl, rfl⟩, rcDecode_rcEncode, fun x => ?_, fun x hx => ?_⟩
  · cases x <;> rfl
  · rw [rcEncode_rcDecode_toNat]
    split <;> omega
  · rw [rcEncode_rcDecode_toNat, if_neg (by omega)]

/-- Settles O21: the code of the decoded variant is the fallback table's number for the whole operand. -/
theorem scDecResult : Obligations.ScDecResult := by
  refine ⟨fun c a b ha hb => decode_cmdWord c _ (cmd_wf_of_lt ha hb), fun raw s => ?_⟩
  rw [exec_scDec, lut_eq_ite_mem, putRsp_of_ill_clear]

/-- Settles O22: on the tag `a[2:0]` the fallback table changes `110` alone. -/
theorem scEncResult : Obligations.ScEncResult := by
  refine ⟨fun c a b ha hb => decode_cmdWord c _ (cmd_wf_of_lt ha hb), fun status s => ?_⟩
  rw [exec_scEnc, lut_toNat_statusTag, putRsp_of_ill_clear]

/-- Settles O23: the code of the decoded variant is 0 for the operand 0 alone. -/
theorem rcDecResult : Obligations.RcDecResult := by
  refine ⟨fun c a b ha hb => decode_cmdWord c _ (cmd_wf_of_lt ha hb), fun raw s => ?_⟩
  rw [exec_rcDec, putRsp_of_ill_clear]

/-- Settles O24: the tag `a[0]` is the code of the variant that it is read as. -/
theorem rcEncResult : Obligations.RcEncResult := by
  refine ⟨fun c a b ha hb => decode_cmdWord c _ (cmd_wf_of_lt ha hb), fun resolution s => ?_⟩
  rw [exec_rcEnc, putRsp_of_ill_clear]

/-- Settles O25: the multiplier of the variant that the tag `a[0]` is read as. -/
theorem rcMulResult : Obligations.RcMulResult := by
  refine ⟨fun c a b ha hb => decode_cmdWord c _ (cmd_wf_of_lt ha hb), fun resolution s => ?_⟩
  have hzero : resolution = 0#1 ↔ resolution.toNat = 0 := BitVec.toNat_inj.symm
  simp only [exec_rcMul, putRsp_of_ill_clear, hzero]

/-- Settles O11: a number that is no code is decoded as 7 is. -/
theorem statusDecodeIsTheFallbackTable : Obligations.StatusDecodeIsTheFallbackTable := by
  refine fun x => ⟨fun hx => ?_, fun hx => ?_⟩
  · rw [scEncode_scDecode_toNat]
    exact (lut_eq_self_iff x).mpr hx
  · rw [scDecode_eq_scDecode_lut, lut_eq_ite_mem, if_neg hx]
    rfl

/-- Settles O20: a variant is determined by its tag and a tag by its name, and no variant has the one tag without a name. -/
theorem namesAreOneToOne : Obligations.NamesAreOneToOne := by
  refine ⟨fun v w => ⟨?_, fun h => scEncode_injective (statusTagName_injective h)⟩, rfl,
    fun v w => ⟨resolutionTagName_isSome _, fun h => rcEncode_injective (resolutionTagName_injective h)⟩⟩
  exact (statusTagName_isSome_iff _).mpr fun h => scEncode_ne_six v (congrArg BitVec.toNat h)

end Sys2Proof.EnumValidators
end

section
/-! SUPPORT. The identifier codec (R73 to R79): the two nibbles of a byte taken apart and put together again, and the
byte with `identifier` masked or the sum narrowed. -/

namespace Sys2Proof.Machine

theorem biDecode_count_toNat (raw : Byte) : (biDecode raw).count.toNat = raw.toNat % 16 :=
  lowNibble_toNat raw

/-- R72: a byte has no bit above its high nibble. -/
theorem highNibble_mod (raw : Byte) : raw.toNat / 16 % 16 = raw.toNat / 16 :=
  Nat.mod_eq_of_lt (Nat.div_lt_of_lt_mul raw.isLt)

/-- R78: decode sees what encode keeps of a value, the whole `count` and the low four bits of `identifier`. -/
theorem biDecode_biEncode (v : BatteryIdentifier) : biDecode (biEncode v) = ⟨v.count, v.identifier % 16⟩ := by
  obtain ⟨count, identifier⟩ := v
  have hcount : (biDecode (biEncode ⟨count, identifier⟩)).count = count := by
    apply BitVec.eq_of_toNat_eq
    rw [biDecode_count_toNat, biEncode_toNat, Nat.add_mul_mod_self_left, Nat.mod_eq_of_lt count.isLt]
  have hidentifier : (biDecode (biEncode ⟨count, identifier⟩)).identifier = identifier % 16 := by
    rw [biDecode_identifier, biEncode_toNat, Nat.add_mul_div_left _ _ (by decide), Nat.div_eq_of_lt count.isLt,
      Nat.zero_add, Nat.mod_mod]
  exact Eq.mpr (BatteryIdentifier.mk.injEq ..) ⟨hcount, hidentifier⟩

theorem biDecode_biEncode_of_le {v : BatteryIdentifier} (h : v.identifier ≤ 15) : biDecode (biEncode v) = v := by
  rw [biDecode_biEncode, Nat.mod_eq_of_lt (Nat.lt_succ_of_le h)]

/-- R79: the two nibbles of a byte make it up. -/
theorem biEncode_biDecode (raw : Byte) : biEncode (biDecode raw) = raw := by
  apply BitVec.eq_of_toNat_eq
  rw [biEncode_toNat, biDecode_count_toNat, biDecode_identifier, Nat.mod_mod, highNibble_mod, Nat.mod_add_div]

theorem biDecode_injective : Function.Injective biDecode :=
  Function.LeftInverse.injective biEncode_biDecode

/-- R76 as it is written: the OR, narrowed. -/
theorem biEncode_toNat_eq_mod (count : Nibble) (identifier : Nat) :
    (biEncode ⟨count, identifier⟩).toNat = (count.toNat ||| (identifier <<< 4)) % 256 :=
  BitVec.toNat_ofNat _ 8

/-- R77: the bits of `identifier` that narrowing removes after the shift are those that the mask removes before it. -/
theorem shiftLeft_four_mod (identifier : Nat) : (identifier <<< 4) % 2 ^ 8 = (identifier &&& 0x0F) <<< 4 := by
  have hmask : identifier &&& 0x0F = identifier % 2 ^ 4 := Nat.and_two_pow_sub_one_eq_mod _ 4
  rw [hmask, Nat.shiftLeft_eq, Nat.shiftLeft_eq, show 2 ^ 8 = 2 ^ 4 * 2 ^ 4 from rfl, Nat.mul_mod_mul_right]

/-- R75: a count in range is stored, a larger one is stored as 15. -/
theorem biConstruct_count_toNat (count identifier : Nat) :
    (biConstruct count identifier).count.toNat = if count ≤ 15 then count else 15 :=
  clamp_toNat count

theorem biConstruct_identifier (count identifier : Nat) : (biConstruct count identifier).identifier = identifier := rfl

end Sys2Proof.Machine
end

section
/-! The statements of 41_battery_identifier.md. -/

namespace Sys2Proof.Identifier

open Sys2Proof.Machine

/-- Settles O14: narrowing goes through the OR, leaves `count` alone and masks the shifted `identifier`. -/
theorem identifierNarrowingEqualsMasking : Obligations.IdentifierNarrowingEqualsMasking := by
  intro count identifier
  refine ⟨?_, biEncode_toNat_eq_mod count identifier⟩
  have hcount : count.toNat % 2 ^ 8 = count.toNat := Nat.mod_eq_of_lt (by omega)
  calc (biEncode ⟨count, identifier⟩).toNat
      = (count.toNat ||| (identifier <<< 4)) % 2 ^ 8 := biEncode_toNat_eq_mod count identifier
    _ = count.toNat ||| ((identifier &&& 0x0F) <<< 4) := by
      rw [Nat.or_mod_two_pow, hcount, shiftLeft_four_mod]

/-- Settles O15: decode after encode keeps `count` and reduces `identifier` modulo 16, which is the identity up to 15. -/
theorem identifierRoundTrip : Obligations.IdentifierRoundTrip := by
  intro count identifier
  refine ⟨fun hcount hid => ⟨biDecode_biEncode_of_le hid, ?_, rfl⟩, fun hid => ?_,
    fun hcount hid => ⟨biDecode_biEncode_of_le hid, ?_⟩⟩
  · rw [biConstruct_count_toNat, if_pos hcount]
  · rw [biDecode_biEncode, biConstruct_identifier]
    exact ⟨rfl, show identifier % 16 ≠ identifier by omega⟩
  · rw [biConstruct_count_toNat, if_neg (Nat.not_le_of_lt hcount)]

/-- Settles O16: encode is a left inverse of decode on every byte, and a right inverse on identifiers of four bits. -/
theorem identifierDecodeIsABijection : Obligations.IdentifierDecodeIsABijection := by
  refine ⟨fun x => ⟨?_, biEncode_biDecode x⟩, fun v hv => ⟨biEncode v, biDecode_biEncode_of_le hv, fun y hy => ?_⟩,
    fun v => biEncode_biDecode (biEncode v)⟩
  · rw [biDecode_identifier]
    exact Nat.le_of_lt_succ (Nat.mod_lt _ (by decide))
  · exact biDecode_injective (hy.trans (biDecode_biEncode_of_le hv).symm)

/-- Settles O26: the two nibbles of the byte `a[7:0]`, of which the high one is all that lies above the low one. -/
theorem biDecResult : Obligations.BiDecResult := by
  refine ⟨fun c a b ha hb => decode_cmdWord c _ (cmd_wf_of_lt ha hb), fun raw s => ?_⟩
  rw [exec_biDec, highNibble_mod, putRsp_of_ill_clear]

/-- Settles O27: `count` through the clamp, `identifier` as given. -/
theorem biConResult : Obligations.BiConResult := by
  refine ⟨fun c a b ha hb => decode_cmdWord c _ (cmd_wf_of_lt ha hb), fun count identifier s => ?_⟩
  rw [exec_biCon, putRsp_of_ill_clear]

/-- Settles O28: the byte of `a[3:0]` and the low nibble of `b`. -/
theorem biEncResult : Obligations.BiEncResult := by
  refine ⟨fun c a b ha hb => decode_cmdWord c _ (cmd_wf_of_lt ha hb), fun count identifier s => ?_⟩
  rw [exec_biEnc, putRsp_of_ill_clear]

end Sys2Proof.Identifier
end

section
/-! SUPPORT. The descriptive codec (R81 to R88): a value as its three codes, the bytes that share a value, and the list of
the 224 values. -/

namespace Sys2Proof.Machine

open Sys2Proof.Safety

/-- R24: a value is determined by its three codes. -/
theorem descriptive_eq_iff (v w : BatteryDescriptiveField) :
    v = w ↔ v.coarseVoltage.toNat = w.coarseVoltage.toNat ∧
      (rcEncode v.resolution).toNat = (rcEncode w.resolution).toNat ∧ (scEncode v.status).toNat = (scEncode w.status).toNat := by
  rw [BitVec.toNat_inj, BitVec.toNat_inj, BitVec.toNat_inj, rcEncode_injective.eq_iff, scEncode_injective.eq_iff]
  cases v
  cases w
  exact (BatteryDescriptiveField.mk.injEq ..).to_iff.trans (and_congr_right' and_comm)

theorem bdfDecode_coarseVoltage_toNat (raw : Byte) : (bdfDecode raw).coarseVoltage.toNat = raw.toNat % 16 :=
  lowNibble_toNat raw

/-- R80: a byte has no bit above bit 7. -/
theorem topBit_mod (raw : Byte) : raw.toNat / 128 % 2 = raw.toNat / 128 :=
  Nat.mod_eq_of_lt (Nat.div_lt_of_lt_mul raw.isLt)

/-- R86: encode loses nothing of a value. -/
theorem bdfDecode_bdfEncode (v : BatteryDescriptiveField) : bdfDecode (bdfEncode v) = v := by
  have hcode : lut (scEncode v.status).toNat = (scEncode v.status).toNat := by
    rw [← scEncode_scDecode_toNat, scDecode_scEncode]
  refine (descriptive_eq_iff _ _).mpr ⟨?_, ?_, ?_⟩
  · rw [bdfDecode_coarseVoltage_toNat, bdfEncode_toNat]
    omega
  · rw [rcEncode_bdfDecode_resolution, bdfEncode_toNat]
    omega
  · rw [scEncode_bdfDecode_status, bdfEncode_status, hcode]

/-- R88: what decode sees of a byte. -/
theorem bdfDecode_eq_iff (x y : Byte) :
    bdfDecode x = bdfDecode y ↔ x.toNat % 16 = y.toNat % 16 ∧ x.toNat / 128 = y.toNat / 128 ∧
      lut (x.toNat / 16 % 8) = lut (y.toNat / 16 % 8) := by
  rw [descriptive_eq_iff, bdfDecode_coarseVoltage_toNat, bdfDecode_coarseVoltage_toNat, rcEncode_bdfDecode_resolution,
    rcEncode_bdfDecode_resolution, topBit_mod, topBit_mod, scEncode_bdfDecode_status, scEncode_bdfDecode_status]

/-- R21: the seven battery-status variants. -/
def statusVariants : List StatusCode := [.reserved, .new, .good, .ok, .low, .critical, .invalid]

theorem mem_statusVariants (v : StatusCode) : v ∈ statusVariants := by
  cases v <;> decide

/-- R22: the two resolution variants. -/
def resolutionVariants : List ResolutionCode := [.sixteenSecond, .twoSecond]

theorem mem_resolutionVariants (v : ResolutionCode) : v ∈ resolutionVariants := by
  cases v <;> decide

/-- The value with these three fields. -/
def descriptiveOfFields (p : Fin (2 ^ 4) × StatusCode × ResolutionCode) : BatteryDescriptiveField :=
  ⟨BitVec.ofFin p.1, p.2.1, p.2.2⟩

theorem descriptiveOfFields_injective : Function.Injective descriptiveOfFields := by
  rintro ⟨c, st, re⟩ ⟨c', st', re'⟩ h
  obtain ⟨⟨⟩, rfl, rfl⟩ := (BatteryDescriptiveField.mk.injEq ..).mp h
  rfl

/-- R24: every triple of fields, once. -/
def descriptiveValues : List BatteryDescriptiveField :=
  (List.finRange (2 ^ 4) ×ˢ statusVariants ×ˢ resolutionVariants).map descriptiveOfFields

theorem mem_descriptiveValues (v : BatteryDescriptiveField) : v ∈ descriptiveValues :=
  List.mem_map.mpr ⟨(v.coarseVoltage.toFin, v.status, v.resolution), List.mem_product.mpr ⟨List.mem_finRange _,
    List.mem_product.mpr ⟨mem_statusVariants _, mem_resolutionVariants _⟩⟩, rfl⟩

theorem descriptiveValues_nodup : descriptiveValues.Nodup :=
  ((List.nodup_finRange _).product (List.Nodup.product (by decide) (by decide))).map descriptiveOfFields_injective

/-- R24: "exactly `16 * 7 * 2 = 224` values". -/
theorem descriptiveValues_length : descriptiveValues.length = 16 * (7 * 2) := by
  rw [descriptiveValues, List.length_map, List.length_product, List.length_product, List.length_finRange]
  rfl

/-- R24: a list that lacks no value holds 224 different ones. -/
theorem length_dedup_of_forall_mem {l : List BatteryDescriptiveField} (h : ∀ v, v ∈ l) : l.dedup.length = 224 := by
  have hperm : l.dedup.Perm descriptiveValues :=
    (List.perm_ext_iff_of_nodup l.nodup_dedup descriptiveValues_nodup).mpr fun v =>
      iff_of_true (List.mem_dedup.mpr (h v)) (mem_descriptiveValues v)
  exact hperm.length_eq.trans descriptiveValues_length

/-- R88: every value is decoded from one of the 256 bytes, the one that encode gives. -/
theorem mem_map_bdfDecode (v : BatteryDescriptiveField) :
    v ∈ (List.range 256).map fun n => bdfDecode (BitVec.ofNat 8 n) := by
  refine List.mem_map.mpr ⟨(bdfEncode v).toNat, List.mem_range.mpr (bdfEncode v).isLt, ?_⟩
  rw [BitVec.ofNat_toNat, BitVec.setWidth_eq, bdfDecode_bdfEncode]

/-- R10: the clamp leaves a number of four bits alone. -/
theorem clamp_of_le {x : Nat} (h : x ≤ 15) : clamp x = BitVec.ofNat 4 x :=
  congrArg (BitVec.ofNat 4) (Nat.min_eq_left h)

/-- R50: bit 3 of `b` is its quotient by 8, in one bit. -/
theorem resolutionField3_eq (v : Nat) : resolutionField3 v = BitVec.ofNat 1 (v / 8) :=
  congrArg (BitVec.ofNat 1) (Nat.shiftRight_eq_div_pow v 3)

end Sys2Proof.Machine
end

section
/-! The statements of 42_battery_descriptive_field.md. -/

namespace Sys2Proof.Descriptive

open Sys2Proof.Machine Sys2Proof.Safety

/-- Settles O17: the sum of the three terms fits a byte, so narrowing keeps it. -/
theorem descriptiveEncodeCannotOverflow : Obligations.DescriptiveEncodeCannotOverflow := by
  refine fun v => ⟨bdfOr_eq_add v, ?_, (bdfEncode_toNat v).trans (bdfOr_eq_add v).symm⟩
  rw [bdfOr_eq_add]
  omega

/-- Settles O18: construct stores a coarse voltage of four bits as it is, and encode loses nothing. -/
theorem descriptiveRoundTrip : Obligations.DescriptiveRoundTrip := by
  intro coarseVoltage status resolution h
  rw [bdfDecode_bdfEncode, bdfConstruct, clamp_of_le h]

/-- Settles O19: encode is a right inverse of decode, so the 256 bytes give all values, which R24 counts. -/
theorem descriptiveDecodeIsOnto : Obligations.DescriptiveDecodeIsOnto :=
  ⟨fun v => ⟨bdfEncode v, bdfDecode_bdfEncode v⟩, bdfDecode_eq_iff, length_dedup_of_forall_mem mem_map_bdfDecode⟩

/-- Settles O29: the three fields of the byte `a[7:0]`, of whose status bits the fallback table changes `110` alone. -/
theorem bdfDecResult : Obligations.BdfDecResult := by
  refine ⟨fun c a b ha hb => decode_cmdWord c _ (cmd_wf_of_lt ha hb), fun raw s => ?_⟩
  rw [exec_bdfDec, lut_of_lt_eight (Nat.mod_lt _ (by decide)), topBit_mod, putRsp_of_ill_clear]

/-- Settles O30: the coarse voltage through the clamp, the tags of `b[3:0]` as they are but for `110`. -/
theorem bdfConResult : Obligations.BdfConResult := by
  refine ⟨fun c a b ha hb => ?_, fun coarseVoltage status resolution s => ?_⟩
  · rw [decode_cmdWord c _ (cmd_wf_of_lt ha hb), instrOfCmd_opE, resolutionField3_eq, statusField]
  · rw [exec_bdfCon, lut_toNat_statusTag, putRsp_of_ill_clear]

/-- Settles O31: the byte of `a[3:0]` and the tags of `b[3:0]`, `110` as `111`. -/
theorem bdfEncResult : Obligations.BdfEncResult := by
  refine ⟨fun c a b ha hb => ?_, fun coarseVoltage status resolution s => ?_⟩
  · rw [decode_cmdWord c _ (cmd_wf_of_lt ha hb), instrOfCmd_opD, resolutionField3_eq, statusField, nibbleField]
  · rw [exec_bdfEnc, lut_toNat_statusTag, putRsp_of_ill_clear]

end Sys2Proof.Descriptive
end

section
/-! SUPPORT. The illegal command (R89) and the command after it (R94): an illegal command hands on nothing but the zero
fields it samples and the model's mark. -/

namespace Sys2Proof.Machine

open Sys2Proof.Safety

/-- R31 and R89: the illegal-command response sets the model's mark, whatever it was (log entry 6). -/
theorem putRsp_of_ill_raised (s : State) :
    putRsp ⟨0, 0, true⟩ s = { s with rsp := ⟨0, 0, true⟩, faultMark := true } := by
  rw [putRsp, markAfter, Bool.or_true]

/-- A state is determined by its six fields. -/
theorem state_eq {s t : State} (hcfg : s.cfg = t.cfg) (hcmd : s.cmd = t.cmd) (hrsp : s.rsp = t.rsp)
    (hpending : s.pending = t.pending) (htemps : s.temps = t.temps) (hmark : s.faultMark = t.faultMark) : s = t := by
  cases s
  cases t
  rw [State.mk.injEq]
  exact ⟨hcfg, hcmd, hrsp, hpending, htemps, hmark⟩

/-- R54 and R89: a step that answers a reserved code answers it with the illegal-command response. -/
theorem step_rsp_of_reserved {s t : State} {h : HostCmd} {rest : List HostCmd} (hp : s.pending = h :: rest)
    (hop : isReserved h.op.toNat = true) (hs : step s = .next t) : t.rsp = ⟨0, 0, true⟩ := by
  obtain ⟨a, b, r, -, hx, rfl⟩ := step_next_operands hp hs
  have hr : r = tableRsp h.op.toNat a b := (answers_iff ⟨h.op, a, b⟩ r).mp fun u => ⟨_, hx u, rfl⟩
  exact hr.trans (tableRsp_of_isReserved hop a b)

/-- R94: a command that reads nothing the illegal command before it samples, presented alone, gives the same state but for
the mark and for the temporaries that it samples its response into: those the illegal command leaves. -/
theorem step_without_reserved {s s' t : State} {h k : HostCmd} {rest : List HostCmd}
    (hop : isReserved h.op.toNat = true) (hread : ∀ n ∈ writesOf h, n ∉ readsOf k)
    (hs : step { s with pending := h :: k :: rest } = .next s') (ht : step s' = .next t) :
    ∃ u : State, step { s with pending := k :: rest } = .next u ∧
      t = { u with temps := sampleTemps s.cfg u.rsp s'.temps k.dests, faultMark := true } := by
  obtain ⟨hcfg, hpending, -, hframe, hmark⟩ := StateOfRun.stepFrame _ s' h (k :: rest) rfl hs
  obtain ⟨hcfgt, hpendingt, -, -, hmarkt⟩ := StateOfRun.stepFrame s' t k rest hpending ht
  obtain ⟨ha, hb⟩ := operandValues_congr fun n hn => hframe n fun hw => hread n hw hn
  obtain ⟨u, hu, hrsp, hcmd⟩ := Scope.responseDependsOnItsOwnCommandAlone
    s' { s with pending := k :: rest } t k rest rest hpending rfl hcfg ha hb ht
  obtain ⟨hcfgu, hpendingu, -, -, -⟩ := StateOfRun.stepFrame _ u k rest rfl hu
  have htemps : t.temps = sampleTemps s.cfg u.rsp s'.temps k.dests := by rw [step_temps hpending ht, hcfg, hrsp]
  have hmarked : t.faultMark = true := by
    rw [hmarkt, hmark, step_rsp_of_reserved rfl hop hs, Bool.or_true, Bool.true_or]
  exact ⟨u, hu, state_eq (hcfgt.trans (hcfg.trans hcfgu.symm)) hcmd.symm hrsp.symm
    (hpendingt.trans hpendingu.symm) htemps hmarked⟩

/-- A temporary reads the same after one response is sampled over two sets of temporaries, if it is sampled into or read
the same in both before. -/
theorem readTemp_sampleTemps_congr (c : Config) (r : Rsp) (dests : List (Nat × RspField)) {temps temps' : List (Nat × Nat)}
    {n : Nat} (h : readTemp temps n = readTemp temps' n ∨ n ∈ dests.map Prod.fst) :
    readTemp (sampleTemps c r temps dests) n = readTemp (sampleTemps c r temps' dests) n := by
  by_cases hn : n ∈ dests.map Prod.fst
  · exact readTemp_sampleTemps_dest c r dests temps temps' n hn
  · rw [readTemp_sampleTemps_other c r dests temps n hn, readTemp_sampleTemps_other c r dests temps' n hn]
    exact h.resolve_right hn

end Sys2Proof.Machine
end

section
/-! The statements of 60_exceptions.md. -/

namespace Sys2Proof.Exceptions

open Sys2Proof.Machine Sys2Proof.Safety

/-- Settles O32: the five codes share the one operation `raiseIll`, which reads no operand. -/
theorem reservedCodesGiveIll : Obligations.ReservedCodesGiveIll := by
  refine ⟨fun c a b ha hb => ?_, fun s => ?_⟩
  · have hdecode (op : OpSel) : decode c (cmdWord c ⟨op, a, b⟩) = .ok (instrOfCmd ⟨op, a, b⟩) :=
      decode_cmdWord c _ (cmd_wf_of_lt ha hb)
    exact ⟨hdecode 0x2#4, hdecode 0x3#4, hdecode 0x7#4, hdecode 0xB#4, hdecode 0xF#4⟩
  · have hill : raiseIll s = .next { s with rsp := ⟨0, 0, true⟩, faultMark := true } := by
      rw [raiseIll_eq, putRsp_of_ill_raised]
    exact ⟨hill, hill, hill, hill, hill⟩

/-- Settles O46: an illegal command that samples nothing leaves the temporaries as they stand. -/
theorem illegalCommandHasNoAfterEffect : Obligations.IllegalCommandHasNoAfterEffect := by
  intro s t h k rest hop hdests hrun
  obtain ⟨s', hs, ht⟩ := run_two_eq_next_iff.mp hrun
  have hread : ∀ n ∈ writesOf h, n ∉ readsOf k := by simp [writesOf, hdests]
  obtain ⟨u, hu, rfl⟩ := step_without_reserved hop hread hs ht
  have hsame : s'.temps = s.temps := by rw [step_temps rfl hs, hdests, sampleTemps]
  have htemps : u.temps = sampleTemps s.cfg u.rsp s'.temps k.dests := by rw [step_temps rfl hu, hsame]
  exact ⟨u, hu, by rw [← htemps]⟩

/-- Settles O53: the temporaries that the illegal command does not sample read the same before `k`, and those that `k`
samples hold its response, whatever they held. -/
theorem sampledIllegalCommandHasNoAfterEffect : Obligations.SampledIllegalCommandHasNoAfterEffect := by
  intro s t h k rest hop hread hrun
  obtain ⟨s', hs, ht⟩ := run_two_eq_next_iff.mp hrun
  obtain ⟨u, hu, rfl⟩ := step_without_reserved hop hread hs ht
  obtain ⟨-, -, -, hframe, -⟩ := StateOfRun.stepFrame _ s' h (k :: rest) rfl hs
  refine ⟨u, hu, rfl, rfl, rfl, rfl, rfl, fun n hn => ?_⟩
  rw [step_temps rfl hu]
  exact readTemp_sampleTemps_congr s.cfg u.rsp k.dests (hn.imp_left (hframe n))

end Sys2Proof.Exceptions
end

section
/-! The statement that spans 40_enum_validators.md, 41_battery_identifier.md and 42_battery_descriptive_field.md: the
command words of their worked examples. -/

namespace Sys2Proof.WorkedExamples

open Sys2Proof.Encoding

/-- A word that the assembler writes for a well-formed instruction is decoded to it (R45, R48, R50). -/
theorem decode_of_encode_eq {c : Config} {i : Instr} {w : Nat} (hwf : i.wf c = true) (hw : encode c i = w) :
    decode c w = .ok i :=
  hw ▸ decodeOfEncodeIsTheInstruction c i hwf

/-- Settles O8: each word is the encoding of its instruction, with 0 in the bits that the operation does not read. -/
theorem workedCommandWordsDecode : Obligations.WorkedCommandWordsDecode :=
  ⟨decode_of_encode_eq (i := .scDec 6) rfl rfl,
    decode_of_encode_eq (i := .scEnc 5#3) rfl rfl,
    decode_of_encode_eq (i := .rcMul 1#1) rfl rfl,
    decode_of_encode_eq (i := .biCon 20 3) rfl rfl,
    decode_of_encode_eq (i := .biEnc 3#4 2) rfl rfl,
    decode_of_encode_eq (i := .bdfDec 0x85#8) rfl rfl,
    decode_of_encode_eq (i := .bdfEnc 5#4 0#3 1#1) rfl rfl⟩

end Sys2Proof.WorkedExamples
end

section
/-! The statement that spans 10_state.md and 70_reset_and_hazards.md: the invariant at reset. -/

namespace Sys2Proof.Reset

open Sys2Proof.Machine Sys2Proof.Safety

/-- Settles O37: the zero command fits the port, its response is the one on `rsp` (`ResetState`) and so fits too, no
temporary is written, and that response is not illegal. -/
theorem resetSatisfiesTheInvariant : Obligations.ResetSatisfiesTheInvariant := by
  obtain ⟨-, -, -, -, hanswers⟩ := StateOfRun.resetState
  have hcmd : State.reset.cmd.wf State.reset.cfg = true := rfl
  exact {
    cmdFits := hcmd
    rspFits := rsp_fits_of_wf hcmd hanswers
    rspIsExec := hanswers
    temps := List.Pairwise.nil
    marked := fun hill => absurd hill Bool.false_ne_true }

end Sys2Proof.Reset
end
